-- ==== Sys2Proof/Word.lean ====
section
/-! DEFINITION. The bit vectors of the block, each with the width that 00_scope.md R5 gives it.
Every value of the spec is an unsigned bit vector of a stated width, and bit 0 is its least significant bit (R6).
The operators of R7 are Lean's own on `BitVec`: `^^^`, `&&&`, `|||`, `~~~`, `<<<`, `>>>`; both shifts are logical and drop
what leaves the width. -/

namespace Sys2Proof

/-- The LFSR state, STATE_W = 16 (R5, R14). -/
abbrev LfsrWord := BitVec 16

/-- A data byte, BYTE_W = 8 (R5). -/
abbrev Byte := BitVec 8

/-- A color, or one field of a byte, FIELD_W = 2 (R5, R9). -/
abbrev Color := BitVec 2

/-- The compressed match mask, one bit a field, FIELDS_PER_BYTE = 4 (R5, R68). -/
abbrev Nibble := BitVec 4

/-- The command word, CMD_W = 4 (R5, R40). -/
abbrev Cmd := BitVec 4

/-- One lane, LANE_W = 64 (R5, R72). -/
abbrev Lane := BitVec 64

/-- The vector block on a 4096-bit port: 512 bytes, 64 lanes (R5, R72). -/
abbrev Block := BitVec 4096

end Sys2Proof
end

