-- ==== Sys2Proof/Syntax.lean ====
section
/-! DEFINITION. The commands of the block, one constructor a row of spec/opcode_table.json (30_encoding.md R42). -/

namespace Sys2Proof

/-- A command. The color is the two bits of `cmd[3:2]`, so a color outside 0 to 3 cannot be written (R43); the data
operands are not part of a command, they come from ports in the same cycle (R44). -/
inductive Instr where
  /-- HOLD, `cmd = 0x0` (40_lfsr.md R57). -/
  | hold
  /-- STEP, `cmd = 0x1` (40_lfsr.md R55). -/
  | step
  /-- MATCH c, `cmd = cc10` (41_scalar_match.md R66). -/
  | matchByte (c : Color)
  /-- VMATCH c, `cmd = cc11` (42_vector_match.md R75). -/
  | vmatch (c : Color)
  deriving DecidableEq, Repr

end Sys2Proof
end

