-- ==== Sys2Proof/Decode.lean ====
section
/-! DEFINITION. The command word's fields, its decoding, total on all 16 words and refusing the reserved ones by name
(30_encoding.md R41 to R48), and the encoder. -/

namespace Sys2Proof

/-- The `op` field, `cmd[1:0]` (R41). -/
def opField (w : Cmd) : BitVec 2 := w.extractLsb' 0 2

/-- The `c` field, `cmd[3:2]` (R41, R43). -/
def colorField (w : Cmd) : Color := w.extractLsb' 2 2

/-- `reserved_bits_set`: op is HOLD or STEP and c is not 0b00 (R45, R46). -/
def reservedBitsSet (w : Cmd) : Bool :=
  (opField w == 0b00#2 || opField w == 0b01#2) && colorField w != 0b00#2

/-- Why a word is no command. -/
inductive DecodeError where
  /-- One of 0x4, 0x5, 0x8, 0x9, 0xC and 0xD (R46). -/
  | reservedEncoding
  deriving DecidableEq, Repr

/-- The command the `op` field selects (R42). -/
def selectCommand (op : BitVec 2) (c : Color) : Instr :=
  if op = 0b00#2 then .hold
  else if op = 0b01#2 then .step
  else if op = 0b10#2 then .matchByte c
  else .vmatch c

/-- Decoding is total: each of the 16 words is a command or reserved (R45). -/
def decode (w : Cmd) : Except DecodeError Instr :=
  if reservedBitsSet w then .error .reservedEncoding
  else .ok (selectCommand (opField w) (colorField w))

/-- The four bits `c c o o`, most significant first (R41). -/
def commandWord (c : Color) (op : BitVec 2) : Cmd := c ++ op

/-- The word of a command (R51). -/
def encode : Instr → Cmd
  | .hold => commandWord 0b00#2 0b00#2
  | .step => commandWord 0b00#2 0b01#2
  | .matchByte c => commandWord c 0b10#2
  | .vmatch c => commandWord c 0b11#2

/-- The command port's four wires out of an opcode-table word, whose bits are numbered as those of `cmd`. A table row has
four bits; the padding that fills its byte has no wire (log entry 10). -/
def cmdOfTableWord (w : Nat) : Cmd := BitVec.ofNat 4 w

/-- The command the decoder reads from a table word of `nbits` bits (log entry 10). Bits at and above `nbits` are 0 in `w`
itself, so `nbits` decides nothing here. -/
def decodeTableWord (nbits w : Nat) : Option Instr :=
  match nbits, decode (cmdOfTableWord w) with
  | _, .ok i => some i
  | _, .error _ => none

end Sys2Proof
end

