-- ==== Sys2Proof/Config.lean ====
section
/-! DEFINITION. What is fixed for this hardware (00_scope.md R5, 10_state.md R13), and the one value the spec leaves open. -/

namespace Sys2Proof.Config

/-- SEED, the LFSR value after reset (R5, R25). -/
def seed : LfsrWord := 0xAF23#16

/-- TAPS, the feedback tap bit positions (R5). -/
def taps : List Nat := [0, 2, 3, 5]

/-- INJECT_POS, the bit that receives the feedback (R5). -/
def injectPos : Nat := 15

/-- HIGH8 selects the high bit of each field of a byte (R5, R64). -/
def high8 : Byte := 0b10101010#8

/-- LOW8 selects the low bit of each field of a byte (R5, R64). -/
def low8 : Byte := 0b01010101#8

/-- HIGH64 selects the high bit of each field of a lane (R5, R75). -/
def high64 : Lane := 0xAAAAAAAAAAAAAAAA#64

/-- LOW64 selects the low bit of each field of a lane (R5, R75). -/
def low64 : Lane := 0x5555555555555555#64

/-- FIELDS_PER_BYTE (R5). -/
def fieldsPerByte : Nat := 4

/-- LANE_W (R5). -/
def laneWidth : Nat := 64

/-- LANES (R5; 90_conflicts.md C2). -/
def lanes : Nat := 64

/-- VBYTES, the bytes of a vector block (R5). -/
def vbytes : Nat := lanes * laneWidth / 8

/-- VFIELDS, the two-bit fields of a vector block (R5; 90_conflicts.md C1). -/
def vfields : Nat := vbytes * fieldsPerByte

/-- PRE_RESET_STATE: what `S.lfsr` holds after the n-th power-up, before the first reset edge. OPEN, any 16-bit value,
including 0x0000 (R5, R26; 93_implementation_defined.md I1). A FREE VALUE: nothing constrains it (log entry 4). -/
opaque preResetState : Nat → LfsrWord

end Sys2Proof.Config
end

