-- ==== Sys2Proof/Machine/State.lean ====
section
/-! DEFINITION. The state of the block and of the host's inputs, as plain data (10_state.md). -/

namespace Sys2Proof.Machine

/-- The input ports other than `clk`, as the host drives them together (R21). -/
structure Pins where
  /-- `rst`, synchronous reset, active high. -/
  rst : Bool
  /-- `cmd[3:0]`, the command word. -/
  cmd : Cmd
  /-- `din[7:0]`, the data byte of MATCH. -/
  din : Byte
  /-- `vdin[4095:0]`, the data block of VMATCH. -/
  vdin : Block
  deriving DecidableEq, Repr

/-- What the host does next (60_exceptions.md R91, R92; log entry 1). -/
inductive HostEvent where
  /-- One cycle with these inputs, ended by a rising edge of `clk` (R10, R16). -/
  | clock (p : Pins)
  /-- The inputs stand so while `clk` has no rising edge: it is stopped, or the edge is still to come (R91, R93). -/
  | noEdge (p : Pins)
  /-- Power is lost and comes back (R91). -/
  | powerLoss
  deriving DecidableEq, Repr

/-- The machine's state. The block itself has one register, `lfsr` (R11); `resetSeen` is the spec's model-only Boolean
(R12); the three port values and the host's events are what makes one block's run plain data (log entries 1 and 3). -/
structure State where
  /-- `S.lfsr` (R11, R14). The ports `state_out` and `prbs_out` are views of it (R23). -/
  lfsr : LfsrWord
  /-- `S.reset_seen`, model only (R12). -/
  resetSeen : Bool
  /-- What `mask_out` carried in the event just completed (R22, log entry 3). -/
  maskOut : Byte
  /-- What `match_out` carried in the event just completed (R22, log entry 3). -/
  matchOut : Nibble
  /-- What `vmask_out` carried in the event just completed (R22, log entry 3). -/
  vmaskOut : Block
  /-- What the host does from here on, next first; past its end the host holds (log entries 1 and 2). -/
  host : List HostEvent
  /-- The MODEL'S OWN counter of power-ups, the argument of the free value `Config.preResetState` (log entry 4). -/
  powerOns : Nat
  deriving DecidableEq, Repr

/-- Why the machine stops with a fault. -/
inductive Fault where
  /-- `NotReset`: a clock cycle with `rst = 0` before the first reset edge (60_exceptions.md R81). Raised by `afterReset`. Safe: the
  hardware goes on from PRE_RESET_STATE. -/
  | notReset
  deriving DecidableEq, Repr

/-- Why a cycle has no meaning in the model. -/
inductive Refusal where
  /-- The command has no meaning yet. No arm of `exec` answers with it. Safe. -/
  | notModelled (mnemonic : String)
  /-- `ReservedEncoding`: `rst = 0` and one of the six reserved words (30_encoding.md R46, 60_exceptions.md R82). Raised by
  `runCommand`. Safe: the hardware runs HOLD or STEP. -/
  | reservedEncoding
  deriving DecidableEq, Repr

/-- What a command or an event answers with. -/
abbrev Result := Host.Outcome State Fault Refusal

/-- The block right after a reset edge (R25, 70_reset_and_hazards.md R93): the seed in the register, the matcher outputs zero
as they are in a reset cycle (R94), and no event of the host's listed (log entry 1). -/
def State.reset : State where
  lfsr := Config.seed
  resetSeen := true
  maskOut := 0#8
  matchOut := 0#4
  vmaskOut := 0#4096
  host := []
  powerOns := 0

/-- The block at power-on, before the first reset edge: the register holds PRE_RESET_STATE (R12, R26). The three port
values are DESIGN CHOICE zero: no cycle has run (log entry 3). -/
def State.powerOn : State where
  lfsr := Config.preResetState 0
  resetSeen := false
  maskOut := 0#8
  matchOut := 0#4
  vmaskOut := 0#4096
  host := []
  powerOns := 0

end Sys2Proof.Machine
end

