-- ==== Sys2Proof/Machine/Operands.lean ====
section
/-! DEFINITION. Reading the operands: the ports of the event at hand, the two output ports that are views of the register, and
the fields, bytes and lanes of a value (10_state.md R21 to R23; 20_memory.md R28, R30; 30_encoding.md R44). -/

namespace Sys2Proof.Machine

/-- The pins of a cycle in which the host wants nothing done: HOLD (R40), the data ports at zero (log entry 2). -/
def idlePins : Pins where
  rst := false
  cmd := 0x0#4
  din := 0#8
  vdin := 0#4096

/-- The event at hand: the next of the host's, or an idle cycle past the end of the list (log entry 2). -/
def State.event (s : State) : HostEvent := s.host.headD (.clock idlePins)

/-- The pins an event drives. A power loss drives none that anything reads. -/
def HostEvent.pins : HostEvent → Pins
  | .clock p => p
  | .noEdge p => p
  | .powerLoss => idlePins

/-- The input ports of the event at hand. -/
def State.pins (s : State) : Pins := s.event.pins

/-- MATCH's data operand, `din[7:0]` of the same cycle (R44). -/
def State.dinByte (s : State) : Byte := s.pins.din

/-- VMATCH's data operand, `vdin[4095:0]` of the same cycle (R44). -/
def State.vdinBlock (s : State) : Block := s.pins.vdin

/-- The port `state_out`, in every cycle the whole register (R23). -/
def State.stateOut (s : State) : LfsrWord := s.lfsr

/-- The port `prbs_out`, in every cycle the register's low byte (R23). -/
def State.prbsOut (s : State) : Byte := s.lfsr.extractLsb' 0 8

/-- The color a host takes from `prbs_out[7:6]` (DRAWCOLOR, 30_encoding.md R52; host convention). -/
def State.drawnColor (s : State) : Color := s.prbsOut.extractLsb' 6 2

/-- Field k of a byte, bits `[2k+1:2k]` (R30; 41_scalar_match.md R64). -/
def field (b : Byte) (k : Nat) : Color := b.extractLsb' (2 * k) 2

/-- Byte i of a block, bits `[8i+7:8i]` (R28). -/
def byteAt (v : Block) (i : Nat) : Byte := v.extractLsb' (8 * i) 8

/-- Lane L of a block, bits `[64L+63:64L]` (R28). -/
def laneAt (v : Block) (l : Nat) : Lane := v.extractLsb' (64 * l) 64

/-- Byte j of a lane, bits `[8j+7:8j]` (R28). -/
def byteOfLane (w : Lane) (j : Nat) : Byte := w.extractLsb' (8 * j) 8

/-- A block with lane L replaced: `v[64L+63:64L] <- r` (42_vector_match.md R75). -/
def setLane (v : Block) (l : Nat) (r : Lane) : Block :=
  (v &&& ~~~((BitVec.allOnes 64).setWidth 4096 <<< (64 * l))) ||| (r.setWidth 4096 <<< (64 * l))

end Sys2Proof.Machine
end

