-- ==== Sys2Proof/Machine/Ops.lean ====
section
/-! DEFINITION. The named operations on the state that the meanings and the step share. -/

namespace Sys2Proof.Machine

/-- Drive the three combinational outputs (10_state.md R22). -/
def State.drive (s : State) (mask : Byte) (compressed : Nibble) (vmask : Block) : State :=
  { s with maskOut := mask, matchOut := compressed, vmaskOut := vmask }

/-- The defaults of the combinational outputs: all zero (30_encoding.md R49; 41_scalar_match.md R69; 42_vector_match.md R77). -/
def State.clearOutputs (s : State) : State := s.drive 0#8 0#4 0#4096

/-- `S.lfsr <- v` (00_scope.md R8): the value the register holds from the next rising edge on. -/
def State.writeLfsr (s : State) (v : LfsrWord) : State := { s with lfsr := v }

/-- A rising edge with `rst = 1` (70_reset_and_hazards.md R93), and the zero outputs of that cycle (R94). -/
def State.resetEdge (s : State) : State :=
  { s.clearOutputs with lfsr := Config.seed, resetSeen := true }

/-- What needs a reset first: the fault NotReset before the first reset edge (60_exceptions.md R81; "requires S.reset_seen",
30_encoding.md R50). -/
def afterReset (s : State) (r : Result) : Result :=
  if s.resetSeen then r else .fault .notReset

/-- Go on from a next state; a fault or a refusal stays (R82: the mark stays). -/
def onNext (r : Result) (f : State → State) : Result :=
  match r with
  | .next t => .next (f t)
  | .fault e => .fault e
  | .refused e => .refused e

/-- Power is lost and comes back: the register holds a new free value and the block needs a reset (60_exceptions.md R91; 10_state.md
R12, R26; log entries 4 and 5). -/
def State.losePower (s : State) : State :=
  { s with
    lfsr := Config.preResetState (s.powerOns + 1)
    powerOns := s.powerOns + 1
    resetSeen := false }

/-- The host goes on to its next event (20_memory.md R37: one command a cycle, in order). -/
def State.nextEvent (s : State) : State := { s with host := s.host.tail }

/-- Put a command word on the pins of the cycle at hand: `rst = 0`, `cmd` the word; the data ports and the host's later events
stay (log entry 1). -/
def State.presentCommand (s : State) (w : Cmd) : State :=
  { s with host := .clock { s.pins with rst := false, cmd := w } :: s.host.tail }

end Sys2Proof.Machine
end

