-- ==== Sys2Proof/Machine/Lfsr.lean ====
section
/-! DEFINITION. U1, the PRBS generator: the feedback and next-state functions, HOLD and STEP (40_lfsr.md). -/

namespace Sys2Proof.Machine

/-- The feedback bit: the XOR of the tap bits (R53). -/
def fb (s : LfsrWord) : Bool := Config.taps.foldl (fun b i => b ^^ s.getLsbD i) false

/-- The next state: shift right by one and put the feedback bit in at bit 15 (R54). -/
def lfsrNext (s : LfsrWord) : LfsrWord :=
  (s >>> 1) ||| ((BitVec.ofBool (fb s)).setWidth 16 <<< Config.injectPos)

/-- The inverse step: `{t[14:0], t[15] ^ t[1] ^ t[2] ^ t[4]}` (R59). -/
def lfsrPrev (t : LfsrWord) : LfsrWord :=
  (t <<< 1) ||| (BitVec.ofBool (t.getLsbD 15 ^^ t.getLsbD 1 ^^ t.getLsbD 2 ^^ t.getLsbD 4)).setWidth 16

/-- `lfsr_next^n`: n applications of the next-state function (R56). -/
def lfsrAfter : Nat → LfsrWord → LfsrWord
  | 0, s => s
  | n + 1, s => lfsrNext (lfsrAfter n s)

/-- HOLD: the register is unchanged and the three matcher outputs are zero (R57). -/
def execHold (s : State) : Result := afterReset s (.next s.clearOutputs)

/-- STEP: the register takes its next state at the edge; the drawn byte is then on `prbs_out` (R55, R56). -/
def execStep (s : State) : Result :=
  afterReset s (.next (s.clearOutputs.writeLfsr (lfsrNext s.lfsr)))

end Sys2Proof.Machine
end

