-- ==== Sys2Proof/Machine/ScalarMatch.lean ====
section
/-! DEFINITION. U2, the scalar matcher: MATCH (41_scalar_match.md). -/

namespace Sys2Proof.Machine

/-- The color repeated into the four fields of a byte: `(c << 6) | (c << 4) | (c << 2) | c`, each term 8 bits wide (R65). -/
def colorMask (c : Color) : Byte :=
  (c.setWidth 8 <<< 6) ||| (c.setWidth 8 <<< 4) ||| (c.setWidth 8 <<< 2) ||| c.setWidth 8

/-- `masked & HIGH8 & ((masked & LOW8) << 1)`: the high bit of each field whose two bits are both set (R66). -/
def foldByte (masked : Byte) : Byte :=
  masked &&& Config.high8 &&& ((masked &&& Config.low8) <<< 1)

/-- The match mask of one byte against one color (R66). -/
def match8 (c : Color) (b : Byte) : Byte := foldByte (b ^^^ ~~~(colorMask c))

/-- The four high bits of a mask, `{m[7], m[5], m[3], m[1]}` (R68). -/
def compress4 (m : Byte) : Nibble :=
  (m.extractLsb' 7 1 ++ m.extractLsb' 5 1 ++ m.extractLsb' 3 1 ++ m.extractLsb' 1 1 : BitVec (1 + 1 + 1 + 1))

/-- The outputs while MATCH c is on the pins: the match mask of `din` and its compressed copy, and a zero `vmask_out` (R66; 30_encoding.md
R49). -/
def State.driveMatch (s : State) (c : Color) : State :=
  s.drive (match8 c s.dinByte) (compress4 (match8 c s.dinByte)) 0#4096

/-- MATCH c: its outputs, in this cycle; the register is unchanged (R66). -/
def execMatchByte (c : Color) (s : State) : Result :=
  afterReset s (.next (s.driveMatch c))

end Sys2Proof.Machine
end

