-- ==== Sys2Proof/Machine/VectorMatch.lean ====
section
/-! DEFINITION. U3, the vector matcher: VMATCH (42_vector_match.md). -/

namespace Sys2Proof.Machine

/-- The 64-bit broadcast mask, one of four constants (R73; 90_conflicts.md C8). -/
def vsel (c : Color) : Lane :=
  if c = 0b11#2 then 0xFFFFFFFFFFFFFFFF#64
  else if c = 0b10#2 then Config.high64
  else if c = 0b01#2 then Config.low64
  else 0x0000000000000000#64

/-- `masked & HIGH64 & ((masked & LOW64) << 1)`: the scalar matcher's last step on a whole lane, the shift within the lane
(R75). -/
def foldLane (masked : Lane) : Lane :=
  masked &&& Config.high64 &&& ((masked &&& Config.low64) <<< 1)

/-- The match mask of one lane against one color: the loop body of R75. -/
def laneMatch (c : Color) (w : Lane) : Lane := foldLane (w ^^^ ~~~(vsel c))

/-- The loop of R75 for the lanes below n: what a build with n lanes computes (R79). -/
def vmatchLanes (c : Color) (v : Block) : Nat → Block
  | 0 => 0#4096
  | n + 1 => setLane (vmatchLanes c v n) n (laneMatch c (laneAt v n))

/-- The match mask of a block against one color, all 64 lanes (R75). -/
def vmatch (c : Color) (v : Block) : Block := vmatchLanes c v Config.lanes

/-- The outputs while VMATCH c is on the pins: the match mask of `vdin`, and zero scalar outputs (R75; 30_encoding.md R49). -/
def State.driveVmatch (s : State) (c : Color) : State := s.drive 0#8 0#4 (vmatch c s.vdinBlock)

/-- VMATCH c: its outputs, in this cycle; the register is unchanged (R75). -/
def execVmatch (c : Color) (s : State) : Result :=
  afterReset s (.next (s.driveVmatch c))

end Sys2Proof.Machine
end

