-- ==== Sys2Proof/Machine/Dispatch.lean ====
section
/-! DEFINITION. One arm per command (30_encoding.md R42, R50): what the command does in a cycle with `rst = 0`. -/

namespace Sys2Proof.Machine

def exec (i : Instr) (s : State) : Host.Outcome State Fault Refusal :=
  match i with
  | .hold => Sys2Proof.Machine.execHold s
  | .step => Sys2Proof.Machine.execStep s
  | .matchByte c => Sys2Proof.Machine.execMatchByte c s
  | .vmatch c => Sys2Proof.Machine.execVmatch c s

end Sys2Proof.Machine
end

