-- ==== Sys2Proof/Machine/Cycle.lean ====
section
/-! DEFINITION. One event of the host's: the cycle function (30_encoding.md R49), the time without an edge and the loss of power
(60_exceptions.md R91). -/

namespace Sys2Proof.Machine

/-- The part of the cycle function with `rst = 0`: NotReset is checked first, then ReservedEncoding, then the one command runs
(R49; 60_exceptions.md R84). -/
def runCommand (s : State) : Result :=
  afterReset s
    (match decode s.pins.cmd with
     | .ok i => exec i s
     | .error .reservedEncoding => .refused .reservedEncoding)

/-- The cycle function: `rst = 1` wins over everything (R49; R84). -/
def clockCycle (s : State) : Result :=
  if s.pins.rst then .next s.resetEdge else runCommand s

/-- The outputs that a command's word on the pins drives (R49). HOLD and STEP drive none, and a reserved word none either
(41_scalar_match.md R69; 42_vector_match.md R77). -/
def State.followWord (s : State) : State :=
  match decode s.pins.cmd with
  | .ok .hold => s.clearOutputs
  | .ok .step => s.clearOutputs
  | .ok (.matchByte c) => s.driveMatch c
  | .ok (.vmatch c) => s.driveVmatch c
  | .error .reservedEncoding => s.clearOutputs

/-- No rising edge: the combinational outputs follow the inputs, zero while `rst = 1` (R94), and nothing else changes, whatever
the pins carry and whether or not a reset has come: only what stands at an edge matters to the block (R91;
70_reset_and_hazards.md R93; 93_implementation_defined.md I8; log entry 6). -/
def withoutEdge (s : State) : Result :=
  .next (if s.pins.rst then s.clearOutputs else s.followWord)

/-- What the event at hand does. -/
def runEvent (s : State) : Result :=
  match s.event with
  | .clock _ => clockCycle s
  | .noEdge _ => withoutEdge s
  | .powerLoss => .next s.losePower

end Sys2Proof.Machine
end

