-- ==== Sys2Proof/Machine/Step.lean ====
section
/-! DEFINITION. The step, one event of the host's, and how the host places a command for the next one. -/

namespace Sys2Proof.Machine

/-- One step: the event at hand, then the host goes on to its next (20_memory.md R37). -/
def step (s : State) : Host.Outcome State Fault Refusal :=
  onNext (runEvent s) State.nextEvent

/-- The state with the command of a table word on the pins of the cycle at hand, so that the very next step runs it. The block
fetches nothing: the host presents one command a cycle (10_state.md R18; 30_encoding.md R40; log entry 1). As in
`decodeTableWord`, `nbits` decides nothing (log entry 10). -/
def State.withFetchWord (s : State) (nbits w : Nat) : State :=
  match nbits with
  | _ => s.presentCommand (cmdOfTableWord w)

end Sys2Proof.Machine
end

