-- ==== Sys2Proof/WellFormed.lean ====
section
/-! DEFINITION. What may be written for the block in a source line (30_encoding.md R51, R52), and the checks a line must
pass. An `Instr` itself needs no check: its one operand is two bits wide. The operands of a source line are literals of
any size, and "a line whose operand is out of range does not assemble" (R51). -/

namespace Sys2Proof

/-- A source line: the four commands with their data operand (R51) and the four pseudo-commands (R52). -/
inductive AsmLine where
  | hold
  | step
  /-- `MATCH c, b`: a color literal and a byte literal. -/
  | matchByte (c b : Nat)
  /-- `VMATCH c, V`: a color literal and a host buffer, byte 0 first. -/
  | vmatch (c : Nat) (v : List Byte)
  | nop
  | reset
  /-- `STEPN n`: n draws, n at least 1. -/
  | stepN (n : Nat)
  | drawColor
  deriving DecidableEq, Repr

/-- A color literal is 0, 1, 2 or 3 (R51). -/
def colorInRange (c : Nat) : Bool := decide (c ≤ 3)

/-- A byte literal is an 8-bit literal (R51). -/
def byteInRange (b : Nat) : Bool := decide (b ≤ 0xFF)

/-- A buffer holds exactly 512 bytes (R51, 42_vector_match.md R72). -/
def bufferInRange (v : List Byte) : Bool := decide (v.length = Config.vbytes)

/-- STEPN repeats at least once (R52). -/
def repeatInRange (n : Nat) : Bool := decide (1 ≤ n)

/-- The line assembles: each of its operands is in range (R51, R52). -/
def AsmLine.wellFormed : AsmLine → Bool
  | .hold => true
  | .step => true
  | .matchByte c b => colorInRange c && byteInRange b
  | .vmatch c v => colorInRange c && bufferInRange v
  | .nop => true
  | .reset => true
  | .stepN n => repeatInRange n
  | .drawColor => true

end Sys2Proof
end

