-- ==== Sys2Proof/Machine/Assembler.lean ====
section
/-! DEFINITION. From source lines to the host's cycles (30_encoding.md R51, R52): how a host's program comes to run. -/

namespace Sys2Proof.Machine

/-- `pack`: a host buffer on the 4096-bit port, byte 0 lowest (R51; 20_memory.md R28). -/
def pack : List Byte → Block
  | [] => 0#4096
  | b :: bs => (pack bs <<< 8) ||| b.setWidth 4096

/-- One cycle that presents a command, with the two data ports. -/
def commandCycle (i : Instr) (din : Byte) (vdin : Block) : HostEvent :=
  .clock { rst := false, cmd := encode i, din := din, vdin := vdin }

/-- One cycle with `rst = 1`, and `cmd = 0x0` by convention (R52). -/
def resetCycle : HostEvent := .clock { idlePins with rst := true }

/-- The cycles of a line whose operands are in range. A port the command does not read carries zero (log entry 11). -/
def lineCycles : AsmLine → List HostEvent
  | .hold => [commandCycle .hold 0#8 0#4096]
  | .step => [commandCycle .step 0#8 0#4096]
  | .matchByte c b => [commandCycle (.matchByte (BitVec.ofNat 2 c)) (BitVec.ofNat 8 b) 0#4096]
  | .vmatch c v => [commandCycle (.vmatch (BitVec.ofNat 2 c)) 0#8 (pack v)]
  | .nop => [commandCycle .hold 0#8 0#4096]
  | .reset => [resetCycle]
  | .stepN n => List.replicate n (commandCycle .step 0#8 0#4096)
  | .drawColor => [commandCycle .step 0#8 0#4096]

/-- A line assembles to its cycles, or not at all where an operand is out of range (R51). -/
def assembleLine (l : AsmLine) : Option (List HostEvent) :=
  if l.wellFormed then some (lineCycles l) else none

/-- A program assembles line by line. -/
def assemble : List AsmLine → Option (List HostEvent)
  | [] => some []
  | l :: ls =>
    match assembleLine l, assemble ls with
    | some es, some rest => some (es ++ rest)
    | _, _ => none

/-- The host takes up a list of events, in place of what it would have done. -/
def State.load (s : State) (es : List HostEvent) : State := { s with host := es }

end Sys2Proof.Machine
end

