-- ==== Sys2Proof/Safety.lean ====
section
/-! DEFINITION. The terms in which claims speak of a good state, of a host that keeps its duties and of the draws it makes. -/

namespace Sys2Proof.Machine

/-- The host keeps its duties in the events to come (60_exceptions.md R92): it resets before the first command after a power-up
(70_reset_and_hazards.md R96) and never presents a reserved encoding (30_encoding.md R46). `seen` says that a reset edge has
come already. What the pins carry away from an edge is no matter of duty (70_reset_and_hazards.md R93). -/
def dutiful : Bool → List HostEvent → Bool
  | seen, [] => seen
  | seen, .clock p :: es => if p.rst then dutiful true es else seen && !reservedBitsSet p.cmd && dutiful seen es
  | seen, .noEdge _ :: es => dutiful seen es
  | _, .powerLoss :: es => dutiful false es

/-- How many STEPs there have been since the last reset edge, n of them before these events (40_lfsr.md R56, R61). -/
def drawsAfter : Nat → List HostEvent → Nat
  | n, [] => n
  | n, .clock p :: es => drawsAfter (if p.rst then 0 else if p.cmd = 0x1#4 then n + 1 else n) es
  | n, .noEdge _ :: es => drawsAfter n es
  | n, .powerLoss :: es => drawsAfter n es

/-- n STEPs one after the other, in n consecutive cycles (40_lfsr.md R55, R60). -/
def stepTimes : Nat → State → Result
  | 0, s => .next s
  | n + 1, s =>
    match exec .step s with
    | .next t => stepTimes n t
    | .fault e => .fault e
    | .refused e => .refused e

/-- The six reserved words (30_encoding.md R46). -/
def reservedWords : List Cmd := [0x4#4, 0x5#4, 0x8#4, 0x9#4, 0xC#4, 0xD#4]

/-- The feedback expression of 90_conflicts.md C4 as it is written, several bits wide, shifted into bit 15 of the shifted state. -/
def literalNext (s : LfsrWord) : LfsrWord :=
  (s >>> 1) ||| ((s ^^^ (s >>> 2) ^^^ (s >>> 3) ^^^ ((s >>> 5) &&& 1#16)) <<< 15)

/-- What holds of every state the block can be in: after a reset the register is not zero (10_state.md R15); the low bit of each
field of a match result is 0 (41_scalar_match.md R67, 42_vector_match.md R76); `match_out` is the compressed `mask_out` (R68); and
the two matchers never drive a result in one cycle (R69, R77). -/
structure State.Inv (s : State) : Prop where
  lfsr_ne_zero : s.resetSeen = true → s.lfsr ≠ 0#16
  mask_low_bits : s.maskOut &&& Config.low8 = 0#8
  match_compressed : s.matchOut = compress4 s.maskOut
  vmask_low_bits : ∀ l, l < Config.lanes → laneAt s.vmaskOut l &&& Config.low64 = 0#64
  one_matcher : s.maskOut = 0#8 ∨ s.vmaskOut = 0#4096

end Sys2Proof.Machine
end

