-- ==== Sys2Proof/Certificates/Slice0/Obligations.lean ====
section
/-! DEFINITION. The statements about the block, for the provers; each docstring names the rule it formalises. -/

open Sys2Proof Sys2Proof.Machine

/-! ## Encoding -/

/-- 30_encoding.md R45: every one of the 16 words decodes, to the command of R45's table or as reserved; and which words have
reserved bits set. -/
def Obligations.DecodeTableOfAllWords : Prop :=
  (∀ w : Cmd, reservedBitsSet w = true ↔
    (w.extractLsb' 0 2 = 0b00#2 ∨ w.extractLsb' 0 2 = 0b01#2) ∧ w.extractLsb' 2 2 ≠ 0b00#2) ∧
  decode 0x0#4 = .ok .hold ∧ decode 0x1#4 = .ok .step ∧
  decode 0x2#4 = .ok (.matchByte 0#2) ∧ decode 0x6#4 = .ok (.matchByte 1#2) ∧
  decode 0xA#4 = .ok (.matchByte 2#2) ∧ decode 0xE#4 = .ok (.matchByte 3#2) ∧
  decode 0x3#4 = .ok (.vmatch 0#2) ∧ decode 0x7#4 = .ok (.vmatch 1#2) ∧
  decode 0xB#4 = .ok (.vmatch 2#2) ∧ decode 0xF#4 = .ok (.vmatch 3#2) ∧
  decode 0x4#4 = .error .reservedEncoding ∧ decode 0x8#4 = .error .reservedEncoding ∧
  decode 0xC#4 = .error .reservedEncoding ∧ decode 0x5#4 = .error .reservedEncoding ∧
  decode 0x9#4 = .error .reservedEncoding ∧ decode 0xD#4 = .error .reservedEncoding

/-- 30_encoding.md R41, R42, R46, R51: decoding the word of a command gives the command back, a word that decodes is the word of
its command, and exactly the six reserved words are refused. -/
def Obligations.DecodeAndEncodeAgree : Prop :=
  (∀ i : Instr, decode (encode i) = .ok i) ∧
  (∀ (w : Cmd) (i : Instr), decode w = .ok i → encode i = w) ∧
  (∀ w : Cmd, decode w = .error .reservedEncoding ↔ w ∈ reservedWords)

/-- 30_encoding.md R51, R43: a line with its operands in range assembles to one cycle with the command's word and its data on the
command's port, and a line with a color above 3 or a byte above 0xFF does not assemble. That a buffer of another length than 512 does not
assemble either is the model's reading of R51 with R72 (log entry 11). -/
def Obligations.SourceLinesAssemble : Prop :=
  (∃ p, assembleLine .hold = some [.clock p] ∧ p.rst = false ∧ p.cmd = 0x0#4) ∧
  (∃ p, assembleLine .step = some [.clock p] ∧ p.rst = false ∧ p.cmd = 0x1#4) ∧
  (∀ c b : Nat, c ≤ 3 → b ≤ 0xFF → ∃ p, assembleLine (.matchByte c b) = some [.clock p] ∧ p.rst = false ∧
    p.cmd = BitVec.ofNat 4 c <<< 2 ||| 0b10#4 ∧ p.din = BitVec.ofNat 8 b) ∧
  (∀ (c : Nat) (v : List Byte), c ≤ 3 → v.length = 512 → ∃ p, assembleLine (.vmatch c v) = some [.clock p] ∧ p.rst = false ∧
    p.cmd = BitVec.ofNat 4 c <<< 2 ||| 0b11#4 ∧ p.vdin = pack v) ∧
  (∀ c b : Nat, 3 < c ∨ 0xFF < b → assembleLine (.matchByte c b) = none) ∧
  (∀ (c : Nat) (v : List Byte), 3 < c ∨ v.length ≠ 512 → assembleLine (.vmatch c v) = none)

/-- 30_encoding.md R52: NOP is HOLD, RESET is one cycle with `rst = 1` and `cmd = 0x0`, STEPN n is n STEPs for n at least 1, and
after DRAWCOLOR's STEP the host reads bits [7:6] of the new state. -/
def Obligations.PseudoCommandsExpand : Prop :=
  assembleLine .nop = assembleLine .hold ∧
  (∃ p, assembleLine .reset = some [.clock p] ∧ p.rst = true ∧ p.cmd = 0x0#4) ∧
  (∀ n, 1 ≤ n → assembleLine (.stepN n) = assemble (List.replicate n .step)) ∧
  assembleLine (.stepN 0) = none ∧
  assembleLine .drawColor = assembleLine .step ∧
  (∀ (s : State) (es rest : List HostEvent), s.resetSeen = true → assembleLine .drawColor = some es → s.host = es ++ rest →
    ∃ t, step s = .next t ∧ t.host = rest ∧ t.drawnColor = t.prbsOut.extractLsb' 6 2 ∧
      t.drawnColor = (lfsrNext s.lfsr).extractLsb' 6 2)

/-! ## The step -/

/-- 30_encoding.md R40, R49; 20_memory.md R37: a cycle after a reset whose word decodes to a command runs exactly that command,
then the host goes on to its next event; and a command that is placed is the one the next step runs: this second clause is about
the model's own placing of a table word (withFetchWord, log entry 1; only its low four bits reach cmd, log entry 10). -/
def Obligations.StepRunsTheDecodedCommand : Prop :=
  (∀ (s : State) (p : Pins) (i : Instr), s.event = .clock p → p.rst = false → s.resetSeen = true → decode p.cmd = .ok i →
    step s = onNext (exec i s) (fun t => { t with host := t.host.tail })) ∧
  (∀ (s : State) (nbits w : Nat) (i : Instr), s.resetSeen = true → decodeTableWord nbits w = some i →
    step (s.withFetchWord nbits w) =
      onNext (exec i (s.withFetchWord nbits w)) (fun t => { t with host := t.host.tail }))

/-- 60_exceptions.md R84: `rst = 1` wins, then NotReset, then ReservedEncoding, then the one command runs. -/
def Obligations.CycleFollowsThePriorityOrder : Prop :=
  ∀ (s : State) (p : Pins), s.event = .clock p →
    (p.rst = true → step s = .next
      { s with lfsr := 0xAF23#16, resetSeen := true, maskOut := 0#8, matchOut := 0#4, vmaskOut := 0#4096, host := s.host.tail }) ∧
    (p.rst = false → s.resetSeen = false → step s = .fault .notReset) ∧
    (p.rst = false → s.resetSeen = true → p.cmd ∈ reservedWords → step s = .refused .reservedEncoding) ∧
    (p.rst = false → s.resetSeen = true → p.cmd ∉ reservedWords →
      ∃ i t, encode i = p.cmd ∧ exec i s = .next t ∧ step s = .next { t with host := s.host.tail })

/-- 60_exceptions.md R81: a step faults exactly in a clock cycle that has `rst = 0` and comes before the first reset edge, with
NotReset; that no other event faults is the model's reading (log entries 5 and 6). -/
def Obligations.FaultExactlyBeforeReset : Prop :=
  ∀ (s : State) (e : Fault),
    step s = .fault e ↔ e = .notReset ∧ s.resetSeen = false ∧ ∃ p, s.event = .clock p ∧ p.rst = false

/-- 60_exceptions.md R82, with the order of R84: a step is refused exactly in a clock cycle that has `rst = 0`, comes after a reset and
carries one of the six reserved words; the refusal marks the whole run. That no other event is
refused is the model's reading (log entries 5 and 6). -/
def Obligations.RefusalExactlyReserved : Prop :=
  ∀ (s : State) (e : Refusal),
    (step s = .refused e ↔ e = .reservedEncoding ∧ s.resetSeen = true ∧
      ∃ p, s.event = .clock p ∧ p.rst = false ∧ p.cmd ∈ reservedWords) ∧
    (step s = .refused e → ∀ k, core.run (k + 1) s = .refused e)

/-- 20_memory.md R37: each step consumes the host's event at hand and no other (the list is the model's, log entry 1), and only a
power loss counts a power-up (the counter is the model's, log entry 4). -/
def Obligations.EventsTakeEffectInOrder : Prop :=
  ∀ s t : State, step s = .next t →
    t.host = s.host.tail ∧ (s.event ≠ .powerLoss → t.powerOns = s.powerOns)

/-! ## Reset, power and the clock -/

/-- 10_state.md R25: the values after a reset edge. R25 gives the three matcher outputs no reset value: that the fields which keep
them are zero is R94's zero outputs of the reset cycle, kept by the model (log entry 3). -/
def Obligations.ResetValues : Prop :=
  State.reset.lfsr = 0xAF23#16 ∧ State.reset.stateOut = 0xAF23#16 ∧ State.reset.prbsOut = 0x23#8 ∧
  State.reset.resetSeen = true ∧
  State.reset.maskOut = 0#8 ∧ State.reset.matchOut = 0#4 ∧ State.reset.vmaskOut = 0#4096 ∧
  (∀ (s : State) (p : Pins), s.event = .clock p → p.rst = true →
    ∃ t, step s = .next t ∧ t.lfsr = 0xAF23#16 ∧ t.stateOut = 0xAF23#16 ∧ t.prbsOut = 0x23#8 ∧ t.resetSeen = true ∧
      t.maskOut = 0#8 ∧ t.matchOut = 0#4 ∧ t.vmaskOut = 0#4096)

/-- 70_reset_and_hazards.md R93: an edge with `rst = 1` seeds the register, whatever the other pins carry and however long `rst`
stays, and without an edge `rst` does nothing to it: whatever stands on the pins before a cycle's edge, the cycle goes as if it had
not stood there. The clauses on `noEdge` are about the model's event, a DESIGN CHOICE, which never stops, DEDUCED (log entry 6), with R16,
R91 and 93_implementation_defined.md I8. -/
def Obligations.ResetIsSynchronous : Prop :=
  (∀ (s : State) (p q : Pins) (es : List HostEvent), p.rst = true → q.rst = true →
    step { s with host := .clock p :: es } = step { s with host := .clock q :: es }) ∧
  (∀ (s : State) (ps : List Pins) (es : List HostEvent), ps ≠ [] → (∀ p ∈ ps, p.rst = true) → s.host = ps.map .clock ++ es →
    ∃ t, core.run ps.length s = .next t ∧ t.lfsr = 0xAF23#16 ∧ t.resetSeen = true ∧ t.stateOut = 0xAF23#16 ∧
      t.prbsOut = 0x23#8 ∧ t.host = es) ∧
  (∀ (s : State) (p : Pins), s.event = .noEdge p →
    ∃ t, step s = .next t ∧ t.lfsr = s.lfsr ∧ t.resetSeen = s.resetSeen) ∧
  (∀ (s : State) (p q : Pins) (es : List HostEvent),
    core.run 2 { s with host := .noEdge p :: .clock q :: es } = core.run 1 { s with host := .clock q :: es })

/-- 70_reset_and_hazards.md R95: a reset in any cycle restarts the sequence: the next STEP, whatever else the host does before it
within its duties, draws 0x91 again. Time without an edge and a loss of power in between are the model's events (log entries 5
and 6). -/
def Obligations.ResetRestartsTheSequence : Prop :=
  ∀ (s : State) (p q : Pins) (es rest : List HostEvent), p.rst = true → dutiful true es = true → drawsAfter 0 es = 0 →
    q.rst = false → q.cmd = 0x1#4 → s.host = .clock p :: (es ++ .clock q :: rest) →
    ∃ t, core.run (es.length + 2) s = .next t ∧ t.prbsOut = 0x91#8 ∧ t.lfsr = 0x5791#16 ∧ t.host = rest

/-- 10_state.md R12, R26: at power-on the register holds the free value PRE_RESET_STATE (log entry 4), every cycle with `rst = 0`
faults, and one reset edge leads to the values after reset; the zero counter and port values there are the model's (log entries 3, 4). -/
def Obligations.PowerOnNeedsAReset : Prop :=
  State.powerOn.resetSeen = false ∧ State.powerOn.lfsr = Config.preResetState 0 ∧
  (∀ (p : Pins) (es : List HostEvent), p.rst = false → step { State.powerOn with host := .clock p :: es } = .fault .notReset) ∧
  (∀ (p : Pins) (es : List HostEvent), p.rst = true → step { State.powerOn with host := .clock p :: es } = .next { State.reset with host := es })

/-- 60_exceptions.md R91, as log entry 5 models it: a power loss takes the register's value away, and the next cycle must be a
reset cycle. -/
def Obligations.PowerLossNeedsAReset : Prop :=
  ∀ s : State, s.event = .powerLoss →
    ∃ t, step s = .next t ∧ t.resetSeen = false ∧ t.lfsr = Config.preResetState (s.powerOns + 1) ∧
      t.powerOns = s.powerOns + 1 ∧ t.host = s.host.tail ∧
      (∀ p, t.event = .clock p → (p.rst = false → step t = .fault .notReset) ∧
        (p.rst = true → ∃ u, step t = .next u ∧ u.lfsr = 0xAF23#16 ∧ u.resetSeen = true))

/-- 60_exceptions.md R91, as log entry 6 models it: while the clock is stopped the register keeps its value, in every state and
under all pins, and the combinational outputs follow the inputs: zero under `rst = 1` and beside the command's own, the match
results under MATCH and VMATCH, and the outputs of a clock cycle wherever that completes. -/
def Obligations.StoppedClockKeepsTheRegister : Prop :=
  ∀ (s : State) (p : Pins) (es : List HostEvent), ∃ t, step { s with host := .noEdge p :: es } = .next t ∧
    t.lfsr = s.lfsr ∧ t.resetSeen = s.resetSeen ∧ t.powerOns = s.powerOns ∧ t.host = es ∧
    (p.rst = true ∨ p.cmd.extractLsb' 0 2 ≠ 0b10#2 → t.maskOut = 0#8 ∧ t.matchOut = 0#4) ∧
    (p.rst = true ∨ p.cmd.extractLsb' 0 2 ≠ 0b11#2 → t.vmaskOut = 0#4096) ∧
    (p.rst = false → p.cmd.extractLsb' 0 2 = 0b10#2 →
      t.maskOut = match8 (p.cmd.extractLsb' 2 2) p.din ∧ t.matchOut = compress4 t.maskOut) ∧
    (p.rst = false → p.cmd.extractLsb' 0 2 = 0b11#2 → t.vmaskOut = vmatch (p.cmd.extractLsb' 2 2) p.vdin) ∧
    (∀ u, step { s with host := .clock p :: es } = .next u →
      t.maskOut = u.maskOut ∧ t.matchOut = u.matchOut ∧ t.vmaskOut = u.vmaskOut)

/-- 10_state.md R12: only a reset edge sets `reset_seen`, and nothing the block does clears it; a power loss starts from power-on
again (log entry 5). -/
def Obligations.ResetSeenIsKept : Prop :=
  ∀ s t : State, step s = .next t →
    (s.resetSeen = true → s.event ≠ .powerLoss → t.resetSeen = true) ∧
    (s.resetSeen = false → t.resetSeen = true → ∃ p, s.event = .clock p ∧ p.rst = true)

/-! ## Commands -/

/-- 30_encoding.md R50: a command requires a reset, and then completes. -/
def Obligations.CommandsRequireAReset : Prop :=
  ∀ (i : Instr) (s : State), (s.resetSeen = false → exec i s = .fault .notReset) ∧ (s.resetSeen = true → ∃ t, exec i s = .next t)

/-- 40_lfsr.md R57: HOLD changes nothing, and the matcher outputs are zero; it is the word 0x0, its reserved forms are refused, and
before a reset it faults. -/
def Obligations.HoldChangesNothing : Prop :=
  decode 0x0#4 = .ok .hold ∧
  (∀ s : State, s.resetSeen = true → exec .hold s = .next { s with maskOut := 0#8, matchOut := 0#4, vmaskOut := 0#4096 }) ∧
  (∀ s : State, s.resetSeen = false → exec .hold s = .fault .notReset) ∧
  (∀ w : Cmd, w = 0x4#4 ∨ w = 0x8#4 ∨ w = 0xC#4 → decode w = .error .reservedEncoding) ∧
  (∀ (s : State) (n : Nat) (es : List HostEvent), s.resetSeen = true →
    s.host = List.replicate n (HostEvent.clock { idlePins with cmd := 0x0#4 }) ++ es →
    ∃ t, core.run n s = .next t ∧ t.lfsr = s.lfsr ∧ t.host = es)

/-- 40_lfsr.md R53, R54, R55: STEP is the word 0x1; bit 15 of the new state is the XOR of the four tap bits, every other bit is
the next higher bit of the old, and the drawn byte is its low byte; nothing else changes but the zero matcher outputs. Its reserved
forms are refused, and before a reset it faults. -/
def Obligations.StepShiftsInTheFeedback : Prop :=
  decode 0x1#4 = .ok .step ∧
  (∀ s : State, s.resetSeen = true →
    ∃ t, exec .step s = .next t ∧
      t = { s with lfsr := t.lfsr, maskOut := 0#8, matchOut := 0#4, vmaskOut := 0#4096 } ∧
      t.lfsr = lfsrNext s.lfsr ∧
      t.lfsr.getLsbD 15 = (s.lfsr.getLsbD 0 ^^ s.lfsr.getLsbD 2 ^^ s.lfsr.getLsbD 3 ^^ s.lfsr.getLsbD 5) ∧
      (∀ k, k < 15 → t.lfsr.getLsbD k = s.lfsr.getLsbD (k + 1)) ∧
      (∀ k, k < 8 → t.prbsOut.getLsbD k = s.lfsr.getLsbD (k + 1))) ∧
  (∀ s : State, s.resetSeen = false → exec .step s = .fault .notReset) ∧
  (∀ w : Cmd, w = 0x5#4 ∨ w = 0x9#4 ∨ w = 0xD#4 → decode w = .error .reservedEncoding) ∧
  lfsrNext 0x0000#16 = 0x0000#16 ∧ lfsrNext 0x0001#16 = 0x8000#16 ∧ lfsrNext 0xFFFF#16 = 0x7FFF#16 ∧
  lfsrNext 0x8000#16 = 0x4000#16 ∧ lfsrNext 0xAF23#16 = 0x5791#16

/-- 70_reset_and_hazards.md R97: in the cycle of a STEP the outputs show the old state, from the next cycle on the new. -/
def Obligations.StepIsSeenOneCycleLate : Prop :=
  ∀ (s : State) (p : Pins), s.event = .clock p → p.rst = false → p.cmd = 0x1#4 → s.resetSeen = true →
    ∃ t, step s = .next t ∧ s.stateOut = s.lfsr ∧ (∀ k, k < 8 → s.prbsOut.getLsbD k = s.lfsr.getLsbD k) ∧
      t.stateOut = lfsrNext s.lfsr ∧ (∀ k, k < 8 → t.prbsOut.getLsbD k = s.lfsr.getLsbD (k + 1))

/-- 41_scalar_match.md R65: the color in each of the four fields; 0x00, 0x55, 0xAA and 0xFF. -/
def Obligations.ColorMaskRepeatsTheColor : Prop :=
  (∀ c : Color, colorMask c = (c ++ c ++ c ++ c : BitVec (2 + 2 + 2 + 2))) ∧
  colorMask 0#2 = 0x00#8 ∧ colorMask 1#2 = 0x55#8 ∧ colorMask 2#2 = 0xAA#8 ∧ colorMask 3#2 = 0xFF#8

/-- 41_scalar_match.md R66, R67, R68: MATCH drives the mask that R66's expression gives, whose bit 2k+1 says that field k equals
the color and whose even bits are 0, and its compressed copy; nothing else changes but the zero vector output. Its word is `cc10`,
and before a reset it faults. -/
def Obligations.MatchMarksEqualFields : Prop :=
  (∀ c : Color, decode (c ++ 0b10#2) = .ok (.matchByte c)) ∧
  (∀ (c : Color) (s : State), s.resetSeen = false → exec (.matchByte c) s = .fault .notReset) ∧
  ∀ (c : Color) (s : State), s.resetSeen = true →
    ∃ t, exec (.matchByte c) s = .next t ∧
      t = { s with maskOut := t.maskOut, matchOut := t.matchOut, vmaskOut := 0#4096 } ∧
      t.maskOut = ((s.pins.din ^^^ ~~~(colorMask c)) &&& 0xAA#8 &&& (((s.pins.din ^^^ ~~~(colorMask c)) &&& 0x55#8) <<< 1)) ∧
      ∀ k, k < 4 →
        (t.maskOut.getLsbD (2 * k + 1) = true ↔ s.pins.din.extractLsb' (2 * k) 2 = c) ∧
        t.maskOut.getLsbD (2 * k) = false ∧
        (t.matchOut.getLsbD k = true ↔ s.pins.din.extractLsb' (2 * k) 2 = c) ∧
        t.matchOut.getLsbD k = t.maskOut.getLsbD (2 * k + 1)

/-- 42_vector_match.md R73, R74: the broadcast mask is one of four constants, the color in each of the 32 fields, and the scalar
mask in each of the 8 bytes. -/
def Obligations.BroadcastMaskRepeatsTheColor : Prop :=
  vsel 0b11#2 = 0xFFFFFFFFFFFFFFFF#64 ∧ vsel 0b10#2 = 0xAAAAAAAAAAAAAAAA#64 ∧
  vsel 0b01#2 = 0x5555555555555555#64 ∧ vsel 0b00#2 = 0x0000000000000000#64 ∧
  (∀ (c : Color) (k : Nat), k < 32 → (vsel c).extractLsb' (2 * k) 2 = c) ∧
  (∀ (c : Color) (j : Nat), j < 8 → byteOfLane (vsel c) j = colorMask c)

/-- 42_vector_match.md R75: VMATCH drives, in all 64 lanes at once, what the loop body gives for that lane of `vdin`; nothing else
changes but the zero scalar outputs. Its word is `cc11`, and before a reset it faults. -/
def Obligations.VmatchComputesEveryLane : Prop :=
  (∀ c : Color, decode (c ++ 0b11#2) = .ok (.vmatch c)) ∧
  (∀ (c : Color) (s : State), s.resetSeen = false → exec (.vmatch c) s = .fault .notReset) ∧
  ∀ (c : Color) (s : State), s.resetSeen = true →
    ∃ t, exec (.vmatch c) s = .next t ∧
      t = { s with maskOut := 0#8, matchOut := 0#4, vmaskOut := t.vmaskOut } ∧
      ∀ l, l < 64 → t.vmaskOut.extractLsb' (64 * l) 64 =
        ((s.pins.vdin.extractLsb' (64 * l) 64 ^^^ ~~~(vsel c)) &&& 0xAAAAAAAAAAAAAAAA#64 &&&
          (((s.pins.vdin.extractLsb' (64 * l) 64 ^^^ ~~~(vsel c)) &&& 0x5555555555555555#64) <<< 1))

/-- 42_vector_match.md R76: VMATCH is the scalar matcher applied to each byte; so the byte i of its result is what MATCH gives for
the byte i of its operand (the check of the source's §4.4 step 6). -/
def Obligations.VmatchIsMatchOnEachByte : Prop :=
  (∀ (c : Color) (v : Block) (i : Nat), i < 512 → (vmatch c v).extractLsb' (8 * i) 8 = match8 c (v.extractLsb' (8 * i) 8)) ∧
  (∀ (c : Color) (s s' : State) (i : Nat), i < 512 → s.resetSeen = true → s'.resetSeen = true → s'.pins.din = s.pins.vdin.extractLsb' (8 * i) 8 →
    ∃ t t', exec (.vmatch c) s = .next t ∧ exec (.matchByte c) s' = .next t' ∧
      t.vmaskOut.extractLsb' (8 * i) 8 = t'.maskOut)

/-- 20_memory.md R28: byte i of a block stands at byte i % 8 of lane i / 8, and a packed buffer holds its byte i there. -/
def Obligations.PackingIsLittleEndian : Prop :=
  (∀ (v : Block) (i : Nat), i < 512 →
    byteAt v i = v.extractLsb' (8 * i) 8 ∧
    byteAt v i = (laneAt v (i / 8)).extractLsb' (8 * (i % 8)) 8 ∧
    laneAt v (i / 8) = v.extractLsb' (64 * (i / 8)) 64) ∧
  (∀ (bs : List Byte) i, bs.length = 512 → i < 512 → byteAt (pack bs) i = bs.getD i 0#8)

/-- 20_memory.md R28: a block is its 512 bytes. -/
def Obligations.BlockIsItsBytes : Prop :=
  ∀ v w : Block, (∀ i, i < 512 → byteAt v i = byteAt w i) → v = w

/-- 42_vector_match.md R79: what a build with n lanes computes is lanes 0 to n - 1 of this block's result, and no more
(the loop stopped early is the model's reading, log entry 15). -/
def Obligations.NarrowBuildComputesAPrefix : Prop :=
  ∀ (c : Color) (v : Block) (n l : Nat), n ≤ 64 → l < 64 →
    laneAt (vmatchLanes c v n) l = if l < n then laneAt (vmatch c v) l else 0#64

/-- 95_test_vectors.md L2.8: for every block the four colors' results are disjoint, and their OR is HIGH64 in every lane. -/
def Obligations.ColorsPartitionTheFields : Prop :=
  ∀ v : Block, (∀ c d : Color, c ≠ d → vmatch c v &&& vmatch d v = 0#4096) ∧
    ∀ l, l < 64 → laneAt (vmatch 0#2 v ||| vmatch 1#2 v ||| vmatch 2#2 v ||| vmatch 3#2 v) l = 0xAAAAAAAAAAAAAAAA#64

/-- 95_test_vectors.md L2.8: color c on the complement of a block gives the result of color 3 - c on the block. -/
def Obligations.ComplementSwapsColors : Prop :=
  ∀ (c : Color) (v : Block), vmatch c (~~~v) = vmatch (3#2 - c) v

/-- 41_scalar_match.md R70, 42_vector_match.md R78: a matcher's outputs depend only on the color and its data port in the same
cycle, it changes nothing a later command can see, and issued twice it gives the same outputs. -/
def Obligations.MatchersHaveNoState : Prop :=
  (∀ (c : Color) (s s' : State), s.resetSeen = true → s'.resetSeen = true → s.pins.din = s'.pins.din →
    ∃ t t', exec (.matchByte c) s = .next t ∧ exec (.matchByte c) s' = .next t' ∧
      t.maskOut = t'.maskOut ∧ t.matchOut = t'.matchOut) ∧
  (∀ (c : Color) (s s' : State), s.resetSeen = true → s'.resetSeen = true → s.pins.vdin = s'.pins.vdin →
    ∃ t t', exec (.vmatch c) s = .next t ∧ exec (.vmatch c) s' = .next t' ∧ t.vmaskOut = t'.vmaskOut) ∧
  (∀ (c : Color) (s : State) (i : Instr), s.resetSeen = true →
    (∃ t, exec (.matchByte c) s = .next t ∧ exec (.matchByte c) t = .next t ∧ exec i t = exec i s) ∧
    (∃ t, exec (.vmatch c) s = .next t ∧ exec (.vmatch c) t = .next t ∧ exec i t = exec i s))

/-- 30_encoding.md R44: in a cycle where a data port is not read its value has no effect on anything. -/
def Obligations.UnreadPortsHaveNoEffect : Prop :=
  ∀ (s : State) (p q : Pins) (es : List HostEvent), p.rst = q.rst → p.cmd = q.cmd →
    (p.cmd.extractLsb' 0 2 = 0b10#2 → p.din = q.din) → (p.cmd.extractLsb' 0 2 = 0b11#2 → p.vdin = q.vdin) →
    step { s with host := .clock p :: es } = step { s with host := .clock q :: es }

/-- 41_scalar_match.md R69, 42_vector_match.md R77: a matcher's outputs are zero in every cycle whose command is not its own,
reset cycles too. -/
def Obligations.UnselectedMatcherOutputsAreZero : Prop :=
  ∀ (s : State) (p : Pins) (t : State), s.event = .clock p → step s = .next t →
    (p.rst = true ∨ p.cmd.extractLsb' 0 2 ≠ 0b10#2 → t.maskOut = 0#8 ∧ t.matchOut = 0#4) ∧
    (p.rst = true ∨ p.cmd.extractLsb' 0 2 ≠ 0b11#2 → t.vmaskOut = 0#4096)

/-! ## The register and its sequence -/

/-- 10_state.md R14, 20_memory.md R35: only reset and STEP write the register (and a loss of power takes its value away, R91,
as log entry 5 models it). -/
def Obligations.OnlyStepAndResetWriteTheRegister : Prop :=
  ∀ s t : State, step s = .next t →
    t.lfsr = s.lfsr ∨
    (∃ p, s.event = .clock p ∧ p.rst = true ∧ t.lfsr = 0xAF23#16) ∨
    (∃ p, s.event = .clock p ∧ p.rst = false ∧ p.cmd = 0x1#4 ∧ s.resetSeen = true ∧ t.lfsr = lfsrNext s.lfsr) ∨
    s.event = .powerLoss

/-- 40_lfsr.md R58: a state steps to zero exactly when it is zero. -/
def Obligations.ZeroStepsOnlyToZero : Prop :=
  ∀ s : LfsrWord, lfsrNext s = 0x0000#16 ↔ s = 0x0000#16

/-- 40_lfsr.md R59: the next-state function is a bijection, with the inverse that R59 gives. -/
def Obligations.StepIsInvertible : Prop :=
  (∀ s : LfsrWord, lfsrPrev (lfsrNext s) = s) ∧ (∀ t : LfsrWord, lfsrNext (lfsrPrev t) = t) ∧
  (∀ t : LfsrWord, lfsrPrev t =
    (t.extractLsb' 0 15 ++ BitVec.ofBool (t.getLsbD 15 ^^ t.getLsbD 1 ^^ t.getLsbD 2 ^^ t.getLsbD 4) : BitVec (15 + 1))) ∧
  Function.Bijective lfsrNext

/-- 40_lfsr.md R60: from the seed the state first returns after exactly 65,535 STEPs, and on the way passes through every non-zero
value exactly once. -/
def Obligations.SeedPeriodIsMaximal : Prop :=
  ∀ s : State, s.resetSeen = true → s.lfsr = 0xAF23#16 →
    (∃ t, stepTimes 65535 s = .next t ∧ t.lfsr = 0xAF23#16) ∧
    (∀ n, 0 < n → n < 65535 → ∃ t, stepTimes n s = .next t ∧ t.lfsr ≠ 0xAF23#16) ∧
    (∀ v : LfsrWord, v ≠ 0x0000#16 → ∃! n, n < 65535 ∧ ∃ t, stepTimes n s = .next t ∧ t.lfsr = v)

/-- 40_lfsr.md R62: consecutive drawn bytes overlap in 7 bits, bit 7 of the second is bit 8 of the state before its STEP, and a
drawn byte's top two bits are bits [7:6] of the state just after the STEP. -/
def Obligations.ConsecutiveDrawsOverlap : Prop :=
  ∀ s : State, s.resetSeen = true →
    ∃ t u, exec .step s = .next t ∧ exec .step t = .next u ∧
      u.prbsOut.extractLsb' 0 7 = t.prbsOut.extractLsb' 1 7 ∧
      u.prbsOut.getLsbD 7 = t.lfsr.getLsbD 8 ∧
      u.prbsOut.extractLsb' 6 2 = u.lfsr.extractLsb' 6 2

/-- 40_lfsr.md R56, R61: whatever a host that keeps its duties does, the register is the seed stepped as often as there were STEPs
since the last reset, and `prbs_out` its low byte. Time without an edge and a loss of power among the events are the model's (log
entries 5 and 6). -/
def Obligations.DrawsDependOnlyOnTheStepCount : Prop :=
  ∀ (s : State) (n : Nat), s.resetSeen = true → s.lfsr = lfsrAfter n 0xAF23#16 → dutiful true s.host = true →
    ∃ t, core.run s.host.length s = .next t ∧ t.host = [] ∧
      t.lfsr = lfsrAfter (drawsAfter n s.host) 0xAF23#16 ∧
      t.prbsOut = (lfsrAfter (drawsAfter n s.host) 0xAF23#16).extractLsb' 0 8

/-- 90_conflicts.md C4: read as it is written, with a multi-bit feedback, §4.1's expression gives the same next state. -/
def Obligations.LiteralFeedbackReadingAgrees : Prop :=
  ∀ s : LfsrWord, literalNext s = lfsrNext s

/-! ## The whole machine -/

/-- 10_state.md R15 with R67, R68, R69, R77: every step keeps the invariant (the fields that keep the port values are the
model's, log entry 3). -/
def Obligations.InvariantIsKeptByEveryStep : Prop :=
  ∀ s t : State, s.Inv → step s = .next t → t.Inv

/-- The invariant holds right after a reset and at power-on (where the port values are the model's choice, log entry 3). -/
def Obligations.InvariantHoldsAtReset : Prop :=
  State.reset.Inv ∧ State.powerOn.Inv

/-- 60_exceptions.md R80, R92; 70_reset_and_hazards.md R96: a host that keeps its duties never meets a fault or a refusal;
past the end of its list it is idle (log entry 2). -/
def Obligations.DutifulHostNeverStops : Prop :=
  ∀ s : State, dutiful s.resetSeen s.host = true →
    (∃ t, step s = .next t ∧ dutiful t.resetSeen t.host = true) ∧ ∀ k, ∃ t, core.run k s = .next t
end

