-- ==== Sys2Proof/Laws/Decode.lean ====
section
/-! SUPPORT. The decoder by cases on its word (30_encoding.md R45, R46). -/

namespace Sys2Proof

/-- A word that decodes has no reserved bits set, and is the command its fields select. -/
theorem decode_eq_ok (w : Cmd) (i : Instr) :
    decode w = .ok i ↔ reservedBitsSet w = false ∧ selectCommand (opField w) (colorField w) = i := by
  unfold decode
  cases h : reservedBitsSet w <;> simp

/-- A word is refused exactly when it has reserved bits set. -/
theorem decode_eq_error (w : Cmd) (e : DecodeError) : decode w = .error e ↔ reservedBitsSet w = true := by
  unfold decode
  cases e
  cases h : reservedBitsSet w <;> simp

end Sys2Proof
end

