-- ==== Sys2Proof/Laws/State.lean ====
section
/-! SUPPORT. What each update of the state writes and leaves, field by field: all true by unfolding, and all that later proofs need
of the updates. -/

namespace Sys2Proof.Machine

/-! `drive` drives the three combinational outputs and nothing else. -/

@[simp] theorem State.drive_lfsr (s : State) (m : Byte) (q : Nibble) (v : Block) : (s.drive m q v).lfsr = s.lfsr := rfl
@[simp] theorem State.drive_resetSeen (s : State) (m : Byte) (q : Nibble) (v : Block) : (s.drive m q v).resetSeen = s.resetSeen := rfl
@[simp] theorem State.drive_maskOut (s : State) (m : Byte) (q : Nibble) (v : Block) : (s.drive m q v).maskOut = m := rfl
@[simp] theorem State.drive_matchOut (s : State) (m : Byte) (q : Nibble) (v : Block) : (s.drive m q v).matchOut = q := rfl
@[simp] theorem State.drive_vmaskOut (s : State) (m : Byte) (q : Nibble) (v : Block) : (s.drive m q v).vmaskOut = v := rfl
@[simp] theorem State.drive_host (s : State) (m : Byte) (q : Nibble) (v : Block) : (s.drive m q v).host = s.host := rfl
@[simp] theorem State.drive_powerOns (s : State) (m : Byte) (q : Nibble) (v : Block) : (s.drive m q v).powerOns = s.powerOns := rfl

/-! `clearOutputs` zeroes the three combinational outputs and nothing else. -/

@[simp] theorem State.clearOutputs_lfsr (s : State) : (s.clearOutputs).lfsr = s.lfsr := rfl
@[simp] theorem State.clearOutputs_resetSeen (s : State) : (s.clearOutputs).resetSeen = s.resetSeen := rfl
@[simp] theorem State.clearOutputs_maskOut (s : State) : (s.clearOutputs).maskOut = 0#8 := rfl
@[simp] theorem State.clearOutputs_matchOut (s : State) : (s.clearOutputs).matchOut = 0#4 := rfl
@[simp] theorem State.clearOutputs_vmaskOut (s : State) : (s.clearOutputs).vmaskOut = 0#4096 := rfl
@[simp] theorem State.clearOutputs_host (s : State) : (s.clearOutputs).host = s.host := rfl
@[simp] theorem State.clearOutputs_powerOns (s : State) : (s.clearOutputs).powerOns = s.powerOns := rfl

/-! `writeLfsr` writes the register and nothing else. -/

@[simp] theorem State.writeLfsr_lfsr (s : State) (w : LfsrWord) : (s.writeLfsr w).lfsr = w := rfl
@[simp] theorem State.writeLfsr_resetSeen (s : State) (w : LfsrWord) : (s.writeLfsr w).resetSeen = s.resetSeen := rfl
@[simp] theorem State.writeLfsr_maskOut (s : State) (w : LfsrWord) : (s.writeLfsr w).maskOut = s.maskOut := rfl
@[simp] theorem State.writeLfsr_matchOut (s : State) (w : LfsrWord) : (s.writeLfsr w).matchOut = s.matchOut := rfl
@[simp] theorem State.writeLfsr_vmaskOut (s : State) (w : LfsrWord) : (s.writeLfsr w).vmaskOut = s.vmaskOut := rfl
@[simp] theorem State.writeLfsr_host (s : State) (w : LfsrWord) : (s.writeLfsr w).host = s.host := rfl
@[simp] theorem State.writeLfsr_powerOns (s : State) (w : LfsrWord) : (s.writeLfsr w).powerOns = s.powerOns := rfl

/-! `resetEdge` seeds the register, records the reset and zeroes the combinational outputs. -/

@[simp] theorem State.resetEdge_lfsr (s : State) : (s.resetEdge).lfsr = Config.seed := rfl
@[simp] theorem State.resetEdge_resetSeen (s : State) : (s.resetEdge).resetSeen = true := rfl
@[simp] theorem State.resetEdge_maskOut (s : State) : (s.resetEdge).maskOut = 0#8 := rfl
@[simp] theorem State.resetEdge_matchOut (s : State) : (s.resetEdge).matchOut = 0#4 := rfl
@[simp] theorem State.resetEdge_vmaskOut (s : State) : (s.resetEdge).vmaskOut = 0#4096 := rfl
@[simp] theorem State.resetEdge_host (s : State) : (s.resetEdge).host = s.host := rfl
@[simp] theorem State.resetEdge_powerOns (s : State) : (s.resetEdge).powerOns = s.powerOns := rfl

/-! `losePower` forgets the register and the reset and counts the power-up. -/

@[simp] theorem State.losePower_lfsr (s : State) : (s.losePower).lfsr = Config.preResetState (s.powerOns + 1) := rfl
@[simp] theorem State.losePower_resetSeen (s : State) : (s.losePower).resetSeen = false := rfl
@[simp] theorem State.losePower_maskOut (s : State) : (s.losePower).maskOut = s.maskOut := rfl
@[simp] theorem State.losePower_matchOut (s : State) : (s.losePower).matchOut = s.matchOut := rfl
@[simp] theorem State.losePower_vmaskOut (s : State) : (s.losePower).vmaskOut = s.vmaskOut := rfl
@[simp] theorem State.losePower_host (s : State) : (s.losePower).host = s.host := rfl
@[simp] theorem State.losePower_powerOns (s : State) : (s.losePower).powerOns = s.powerOns + 1 := rfl

/-! `nextEvent` drops the host's event at hand and nothing else. -/

@[simp] theorem State.nextEvent_lfsr (s : State) : (s.nextEvent).lfsr = s.lfsr := rfl
@[simp] theorem State.nextEvent_resetSeen (s : State) : (s.nextEvent).resetSeen = s.resetSeen := rfl
@[simp] theorem State.nextEvent_maskOut (s : State) : (s.nextEvent).maskOut = s.maskOut := rfl
@[simp] theorem State.nextEvent_matchOut (s : State) : (s.nextEvent).matchOut = s.matchOut := rfl
@[simp] theorem State.nextEvent_vmaskOut (s : State) : (s.nextEvent).vmaskOut = s.vmaskOut := rfl
@[simp] theorem State.nextEvent_host (s : State) : (s.nextEvent).host = s.host.tail := rfl
@[simp] theorem State.nextEvent_powerOns (s : State) : (s.nextEvent).powerOns = s.powerOns := rfl

/-! `presentCommand` changes the host's event at hand and nothing else. -/

@[simp] theorem State.presentCommand_lfsr (s : State) (w : Cmd) : (s.presentCommand w).lfsr = s.lfsr := rfl
@[simp] theorem State.presentCommand_resetSeen (s : State) (w : Cmd) : (s.presentCommand w).resetSeen = s.resetSeen := rfl
@[simp] theorem State.presentCommand_maskOut (s : State) (w : Cmd) : (s.presentCommand w).maskOut = s.maskOut := rfl
@[simp] theorem State.presentCommand_matchOut (s : State) (w : Cmd) : (s.presentCommand w).matchOut = s.matchOut := rfl
@[simp] theorem State.presentCommand_vmaskOut (s : State) (w : Cmd) : (s.presentCommand w).vmaskOut = s.vmaskOut := rfl
@[simp] theorem State.presentCommand_host (s : State) (w : Cmd) : (s.presentCommand w).host = .clock { s.pins with rst := false, cmd := w } :: s.host.tail := rfl
@[simp] theorem State.presentCommand_powerOns (s : State) (w : Cmd) : (s.presentCommand w).powerOns = s.powerOns := rfl

/-! The views of the register read nothing else. -/

@[simp] theorem State.stateOut_drive (s : State) (m : Byte) (q : Nibble) (v : Block) : (s.drive m q v).stateOut = s.stateOut := rfl
@[simp] theorem State.prbsOut_drive (s : State) (m : Byte) (q : Nibble) (v : Block) : (s.drive m q v).prbsOut = s.prbsOut := rfl
@[simp] theorem State.stateOut_nextEvent (s : State) : s.nextEvent.stateOut = s.stateOut := rfl
@[simp] theorem State.prbsOut_nextEvent (s : State) : s.nextEvent.prbsOut = s.prbsOut := rfl

/-! The event at hand and its pins. -/

@[simp] theorem State.event_nil (s : State) (h : s.host = []) : s.event = .clock idlePins := by simp [State.event, h]
theorem State.event_cons (s : State) (e : HostEvent) (es : List HostEvent) (h : s.host = e :: es) : s.event = e := by
  simp [State.event, h]
theorem State.pins_of_clock (s : State) (p : Pins) (h : s.event = .clock p) : s.pins = p := by
  simp [State.pins, h, HostEvent.pins]
theorem State.pins_of_noEdge (s : State) (p : Pins) (h : s.event = .noEdge p) : s.pins = p := by
  simp [State.pins, h, HostEvent.pins]
@[simp] theorem State.presentCommand_event (s : State) (w : Cmd) :
    (s.presentCommand w).event = .clock { s.pins with rst := false, cmd := w } := rfl
@[simp] theorem State.presentCommand_pins (s : State) (w : Cmd) :
    (s.presentCommand w).pins = { s.pins with rst := false, cmd := w } := rfl
@[simp] theorem State.clearOutputs_pins (s : State) : s.clearOutputs.pins = s.pins := rfl
@[simp] theorem State.writeLfsr_pins (s : State) (w : LfsrWord) : (s.writeLfsr w).pins = s.pins := rfl
@[simp] theorem State.drive_pins (s : State) (m : Byte) (q : Nibble) (v : Block) : (s.drive m q v).pins = s.pins := rfl

end Sys2Proof.Machine
end

