-- ==== Sys2Proof/Laws/Lfsr.lean ====
section
/-! SUPPORT. What the functions of U1 do, bit by bit (40_lfsr.md). -/

namespace Sys2Proof.Machine

/-- The feedback is the XOR of the four tap bits (R53). -/
theorem fb_eq (s : LfsrWord) : fb s = (s.getLsbD 0 ^^ s.getLsbD 2 ^^ s.getLsbD 3 ^^ s.getLsbD 5) := by
  simp [fb, Config.taps]

/-- Every bit of the next state (R54). -/
theorem lfsrNext_getLsbD (s : LfsrWord) (i : Nat) :
    (lfsrNext s).getLsbD i = if i = 15 then fb s else s.getLsbD (i + 1) := by
  by_cases h : i = 15
  · subst h; simp [lfsrNext, Config.injectPos]
  · simp only [lfsrNext, Config.injectPos, BitVec.getLsbD_or, BitVec.getLsbD_ushiftRight, BitVec.getLsbD_shiftLeft, h, if_false]
    by_cases h2 : i < 15
    · simp [h2, Nat.add_comm]
    · have h3 : ¬ i < 16 := by omega
      simp [h3, Nat.add_comm]

/-- Every bit of the previous state (R59). -/
theorem lfsrPrev_getLsbD (t : LfsrWord) (i : Nat) :
    (lfsrPrev t).getLsbD i =
      if i = 0 then (t.getLsbD 15 ^^ t.getLsbD 1 ^^ t.getLsbD 2 ^^ t.getLsbD 4)
      else decide (i < 16) && t.getLsbD (i - 1) := by
  by_cases h : i = 0
  · subst h; simp [lfsrPrev]
  · have h1 : ¬ i < 1 := by omega
    simp [lfsrPrev, h]

@[simp] theorem lfsrAfter_zero (s : LfsrWord) : lfsrAfter 0 s = s := rfl
@[simp] theorem lfsrAfter_succ (n : Nat) (s : LfsrWord) : lfsrAfter (n + 1) s = lfsrNext (lfsrAfter n s) := rfl

/-- n steps of m more. -/
theorem lfsrAfter_add (n m : Nat) (s : LfsrWord) : lfsrAfter (n + m) s = lfsrAfter n (lfsrAfter m s) := by
  induction n with
  | zero => simp
  | succ n ih => simp [Nat.succ_add, ih]

end Sys2Proof.Machine
end

