-- ==== Sys2Proof/Laws/PerInstr.lean ====
section
/-! SUPPORT. Statements about every command as syntax, one lemma a constructor: the word of each command is a word of its row
of spec/opcode_table.json. -/

namespace Sys2Proof.Laws.TableRow

/-- The `mask` of the command's row: which bits of its word are fixed. -/
def mask : Instr → Cmd
  | .hold => 0xF#4
  | .step => 0xF#4
  | .matchByte _ => 0x3#4
  | .vmatch _ => 0x3#4

/-- The `match` of the command's row: what the fixed bits are. -/
def fixedBits : Instr → Cmd
  | .hold => 0x0#4
  | .step => 0x1#4
  | .matchByte _ => 0x2#4
  | .vmatch _ => 0x3#4

/-- The command's color, for a command that has one: what its row leaves to `cmd[3:2]`. -/
def color : Instr → Option Color
  | .hold => none
  | .step => none
  | .matchByte c => some c
  | .vmatch c => some c

/-- The command's word has its row's fixed bits, carries its color in `cmd[3:2]`, and is not reserved. -/
def Statement (i : Instr) : Prop :=
  encode i &&& mask i = fixedBits i ∧ (∀ c, color i = some c → colorField (encode i) = c) ∧
    reservedBitsSet (encode i) = false

theorem hold : Statement .hold := by simp [Statement, encode, commandWord, mask, fixedBits, color, reservedBitsSet, opField, colorField]

theorem step : Statement .step := by simp [Statement, encode, commandWord, mask, fixedBits, color, reservedBitsSet, opField, colorField]

theorem matchByte (c : Color) : Statement (.matchByte c) := by
  refine ⟨?_, fun d hd => ?_, ?_⟩
  · revert c; decide
  · cases hd; revert c; decide
  · revert c; decide

theorem vmatch (c : Color) : Statement (.vmatch c) := by
  refine ⟨?_, fun d hd => ?_, ?_⟩
  · revert c; decide
  · cases hd; revert c; decide
  · revert c; decide

end Sys2Proof.Laws.TableRow
end

