-- ==== Sys2Proof/Laws/ScalarMatch.lean ====
section
/-! SUPPORT. What the functions of U2 do, bit by bit (41_scalar_match.md). -/

namespace Sys2Proof.Machine

/-- Every bit of HIGH8: the odd ones. -/
theorem high8_getLsbD (i : Nat) : Config.high8.getLsbD i = decide (i < 8 ∧ i % 2 = 1) := by
  by_cases h : i < 8
  · have : i = 0 ∨ i = 1 ∨ i = 2 ∨ i = 3 ∨ i = 4 ∨ i = 5 ∨ i = 6 ∨ i = 7 := by omega
    rcases this with rfl | rfl | rfl | rfl | rfl | rfl | rfl | rfl <;> decide
  · simp [h, BitVec.getLsbD_of_ge _ i (Nat.le_of_not_lt h)]

/-- Every bit of LOW8: the even ones. -/
theorem low8_getLsbD (i : Nat) : Config.low8.getLsbD i = decide (i < 8 ∧ i % 2 = 0) := by
  by_cases h : i < 8
  · have : i = 0 ∨ i = 1 ∨ i = 2 ∨ i = 3 ∨ i = 4 ∨ i = 5 ∨ i = 6 ∨ i = 7 := by omega
    rcases this with rfl | rfl | rfl | rfl | rfl | rfl | rfl | rfl <;> decide
  · simp [h, BitVec.getLsbD_of_ge _ i (Nat.le_of_not_lt h)]

/-- Every bit of a folded byte: at a field's high bit the AND of the field's two bits, elsewhere 0. -/
theorem foldByte_getLsbD (m : Byte) (i : Nat) :
    (foldByte m).getLsbD i = (decide (i % 2 = 1) && m.getLsbD i && m.getLsbD (i - 1)) := by
  rcases Nat.lt_or_ge i 8 with h | h
  · have : i = 0 ∨ i = 1 ∨ i = 2 ∨ i = 3 ∨ i = 4 ∨ i = 5 ∨ i = 6 ∨ i = 7 := by omega
    rcases this with rfl | rfl | rfl | rfl | rfl | rfl | rfl | rfl <;>
      simp only [foldByte, BitVec.getLsbD_and, BitVec.getLsbD_shiftLeft, high8_getLsbD, low8_getLsbD] <;> simp
  · rw [BitVec.getLsbD_of_ge _ i h, BitVec.getLsbD_of_ge m i h]; simp

/-- Every bit of the replicated color (R65). -/
theorem colorMask_getLsbD (c : Color) (i : Nat) : (colorMask c).getLsbD i = (decide (i < 8) && c.getLsbD (i % 2)) := by
  rcases Nat.lt_or_ge i 8 with h | h
  · have : i = 0 ∨ i = 1 ∨ i = 2 ∨ i = 3 ∨ i = 4 ∨ i = 5 ∨ i = 6 ∨ i = 7 := by omega
    rcases this with rfl | rfl | rfl | rfl | rfl | rfl | rfl | rfl <;> simp [colorMask]
  · rw [BitVec.getLsbD_of_ge _ i h]; simp; intro; omega

/-- Every bit of a match mask: at a field's high bit, whether the field's two bits are the color's. -/
theorem match8_getLsbD (c : Color) (b : Byte) (i : Nat) (hi : i < 8) :
    (match8 c b).getLsbD i =
      (decide (i % 2 = 1) && (b.getLsbD i == c.getLsbD 1) && (b.getLsbD (i - 1) == c.getLsbD 0)) := by
  rw [match8, foldByte_getLsbD]
  by_cases h1 : i % 2 = 1
  · have h3 : i - 1 < 8 := by omega
    have h4 : (i - 1) % 2 = 0 := by omega
    simp only [BitVec.getLsbD_xor, BitVec.getLsbD_not, colorMask_getLsbD, h1, h3, h4, hi]
    cases b.getLsbD i <;> cases b.getLsbD (i - 1) <;> cases c.getLsbD 0 <;> cases c.getLsbD 1 <;> rfl
  · simp [h1]

/-- Every bit of the compressed mask (R68). -/
theorem compress4_getLsbD (m : Byte) (k : Nat) (h : k < 4) : (compress4 m).getLsbD k = m.getLsbD (2 * k + 1) := by
  have : k = 0 ∨ k = 1 ∨ k = 2 ∨ k = 3 := by omega
  rcases this with rfl | rfl | rfl | rfl <;>
    simp only [compress4, BitVec.getLsbD_append] <;> simp

/-! `driveMatch` drives the three outputs and nothing else. -/

@[simp] theorem State.driveMatch_lfsr (s : State) (c : Color) : (s.driveMatch c).lfsr = s.lfsr := rfl
@[simp] theorem State.driveMatch_resetSeen (s : State) (c : Color) : (s.driveMatch c).resetSeen = s.resetSeen := rfl
@[simp] theorem State.driveMatch_maskOut (s : State) (c : Color) : (s.driveMatch c).maskOut = match8 c s.dinByte := rfl
@[simp] theorem State.driveMatch_matchOut (s : State) (c : Color) : (s.driveMatch c).matchOut = compress4 (match8 c s.dinByte) := rfl
@[simp] theorem State.driveMatch_vmaskOut (s : State) (c : Color) : (s.driveMatch c).vmaskOut = 0#4096 := rfl
@[simp] theorem State.driveMatch_host (s : State) (c : Color) : (s.driveMatch c).host = s.host := rfl
@[simp] theorem State.driveMatch_powerOns (s : State) (c : Color) : (s.driveMatch c).powerOns = s.powerOns := rfl

end Sys2Proof.Machine
end

