-- ==== Sys2Proof/Laws/Step.lean ====
section
/-! SUPPORT. What a command and a step can do, said once (30_encoding.md R49, R50). -/

namespace Sys2Proof.Machine

@[simp] theorem onNext_next (s : State) (f : State → State) : onNext (.next s) f = .next (f s) := rfl
@[simp] theorem onNext_fault (e : Fault) (f : State → State) : onNext (.fault e) f = .fault e := rfl
@[simp] theorem onNext_refused (e : Refusal) (f : State → State) : onNext (.refused e) f = .refused e := rfl

/-- Going on from a result reaches a next state only from a next state. -/
theorem onNext_eq_next (r : Result) (f : State → State) (t : State) :
    onNext r f = .next t ↔ ∃ u, r = .next u ∧ t = f u := by
  cases r <;> simp [onNext, eq_comm]

theorem onNext_eq_fault (r : Result) (f : State → State) (e : Fault) : onNext r f = .fault e ↔ r = .fault e := by
  cases r <;> simp [onNext]

theorem onNext_eq_refused (r : Result) (f : State → State) (e : Refusal) :
    onNext r f = .refused e ↔ r = .refused e := by
  cases r <;> simp [onNext]

/-- After a reset nothing is added to a result. -/
theorem afterReset_seen (s : State) (r : Result) (h : s.resetSeen = true) : afterReset s r = r := by
  simp [afterReset, h]

/-- Before a reset every result is NotReset. -/
theorem afterReset_not_seen (s : State) (r : Result) (h : s.resetSeen = false) : afterReset s r = .fault .notReset := by
  simp [afterReset, h]

theorem afterReset_eq_next (s : State) (r : Result) (t : State) :
    afterReset s r = .next t ↔ s.resetSeen = true ∧ r = .next t := by
  cases h : s.resetSeen <;> simp [afterReset, h]

/-- A command that runs changes neither the host's events, nor the counter of power-ups, nor `resetSeen`. -/
theorem exec_frame (i : Instr) (s t : State) (h : exec i s = .next t) :
    t.host = s.host ∧ t.powerOns = s.powerOns ∧ t.resetSeen = s.resetSeen := by
  cases i <;> simp only [exec, execHold, execStep, execMatchByte, execVmatch, afterReset_eq_next, Host.Outcome.next.injEq] at h <;>
    obtain ⟨-, rfl⟩ := h <;> exact ⟨rfl, rfl, rfl⟩

/-- The outputs of time without an edge are all that it changes. -/
theorem followWord_frame (s : State) :
    s.followWord.lfsr = s.lfsr ∧ s.followWord.resetSeen = s.resetSeen ∧ s.followWord.host = s.host ∧
      s.followWord.powerOns = s.powerOns := by
  unfold State.followWord
  split <;> exact ⟨rfl, rfl, rfl, rfl⟩

/-- Time without an edge always goes on. -/
theorem step_of_noEdge (s : State) (p : Pins) (h : s.event = .noEdge p) :
    step s = .next (if p.rst then s.clearOutputs else s.followWord).nextEvent := by
  simp only [step, runEvent, h, withoutEdge, s.pins_of_noEdge p h, onNext_next]

/-- A command that runs drives the outputs that its word drives without an edge. -/
theorem exec_outputs (i : Instr) (s t : State) (hd : decode s.pins.cmd = .ok i) (h : exec i s = .next t) :
    t.maskOut = s.followWord.maskOut ∧ t.matchOut = s.followWord.matchOut ∧ t.vmaskOut = s.followWord.vmaskOut := by
  unfold State.followWord
  rw [hd]
  cases i <;> simp only [exec, execHold, execStep, execMatchByte, execVmatch, afterReset_eq_next, Host.Outcome.next.injEq] at h <;>
    obtain ⟨-, rfl⟩ := h <;> exact ⟨rfl, rfl, rfl⟩

/-- A cycle part with `rst = 0` reaches a next state only by running the command on its pins, after a reset. -/
theorem runCommand_eq_next (s t : State) :
    runCommand s = .next t ↔ s.resetSeen = true ∧ ∃ i, decode s.pins.cmd = .ok i ∧ exec i s = .next t := by
  rw [runCommand, afterReset_eq_next]
  cases h : decode s.pins.cmd with
  | ok i => simp
  | error e => cases e; simp

/-- All that a step can do when it answers a next state. -/
theorem step_next_cases (s t : State) (h : step s = .next t) :
    (∃ p, s.event = .clock p ∧ p.rst = true ∧ t = s.resetEdge.nextEvent) ∨
    (∃ p i u, s.event = .clock p ∧ p.rst = false ∧ s.resetSeen = true ∧ decode p.cmd = .ok i ∧
      exec i s = .next u ∧ t = u.nextEvent) ∨
    (∃ p, s.event = .noEdge p ∧ t = (if p.rst then s.clearOutputs else s.followWord).nextEvent) ∨
    (s.event = .powerLoss ∧ t = s.losePower.nextEvent) := by
  obtain ⟨u, hu, rfl⟩ := (onNext_eq_next _ _ _).1 h
  cases he : s.event with
  | clock p =>
    have hp := s.pins_of_clock p he
    simp only [runEvent, he, clockCycle, hp] at hu
    cases hr : p.rst with
    | true =>
      simp only [hr, if_true, Host.Outcome.next.injEq] at hu
      exact .inl ⟨p, rfl, hr, by rw [← hu]⟩
    | false =>
      simp only [hr, Bool.false_eq_true, if_false, runCommand_eq_next, hp] at hu
      obtain ⟨hs, i, hi, hx⟩ := hu
      exact .inr (.inl ⟨p, i, u, rfl, hr, hs, hi, hx, rfl⟩)
  | noEdge p =>
    have hp := s.pins_of_noEdge p he
    simp only [runEvent, he, withoutEdge, hp, Host.Outcome.next.injEq] at hu
    exact .inr (.inr (.inl ⟨p, rfl, by rw [← hu]⟩))
  | powerLoss =>
    simp only [runEvent, he, Host.Outcome.next.injEq] at hu
    exact .inr (.inr (.inr ⟨rfl, by rw [← hu]⟩))

/-- A cycle in which a command runs, as one equation. -/
theorem step_of_command (s : State) (p : Pins) (i : Instr) (h : s.event = .clock p) (hr : p.rst = false)
    (hs : s.resetSeen = true) (hd : decode p.cmd = .ok i) : step s = onNext (exec i s) State.nextEvent := by
  simp [step, runEvent, h, clockCycle, s.pins_of_clock p h, hr, runCommand, afterReset_seen _ _ hs, hd]

/-- A run of one step more goes on from that step's next state. -/
theorem run_succ_of_step (k : Nat) (s t : State) (h : step s = .next t) :
    Sys2Proof.core.run (k + 1) s = Sys2Proof.core.run k t := by
  simp only [Host.Core.run, show Sys2Proof.core.step s = .next t from h]

end Sys2Proof.Machine
end

