-- ==== Sys2Proof/Laws/VectorMatch.lean ====
section
/-! SUPPORT. What the functions of U3 do to each lane (42_vector_match.md, 20_memory.md R28). -/

namespace Sys2Proof.Machine

/-- Every bit of HIGH64: the odd ones. -/
theorem high64_getLsbD (i : Nat) (h : i < 64) : Config.high64.getLsbD i = decide (i % 2 = 1) :=
  (by decide : ∀ j : Fin 64, Config.high64.getLsbD j.val = decide (j.val % 2 = 1)) ⟨i, h⟩

/-- Every bit of LOW64: the even ones. -/
theorem low64_getLsbD (i : Nat) (h : i < 64) : Config.low64.getLsbD i = decide (i % 2 = 0) :=
  (by decide : ∀ j : Fin 64, Config.low64.getLsbD j.val = decide (j.val % 2 = 0)) ⟨i, h⟩

/-- Every bit of the broadcast mask is the color's bit of the same parity (R73). -/
theorem vsel_getLsbD (c : Color) (i : Nat) (h : i < 64) : (vsel c).getLsbD i = c.getLsbD (i % 2) :=
  (by decide : ∀ (d : Color) (j : Fin 64), (vsel d).getLsbD j.val = d.getLsbD (j.val % 2)) c ⟨i, h⟩

/-- Every bit of a folded lane: at a field's high bit the AND of the field's two bits, elsewhere 0. -/
theorem foldLane_getLsbD (m : Lane) (i : Nat) (h : i < 64) :
    (foldLane m).getLsbD i = (decide (i % 2 = 1) && m.getLsbD i && m.getLsbD (i - 1)) := by
  simp only [foldLane, BitVec.getLsbD_and, BitVec.getLsbD_shiftLeft, high64_getLsbD i h]
  by_cases h1 : i % 2 = 1
  · have h2 : ¬ i < 1 := by omega
    have h3 : i - 1 < 64 := by omega
    have h4 : (i - 1) % 2 = 0 := by omega
    simp [h, h1, h2, low64_getLsbD _ h3, h4]
  · simp [h1]

/-- Every bit of a lane. -/
theorem laneAt_getLsbD (v : Block) (l i : Nat) : (laneAt v l).getLsbD i = (decide (i < 64) && v.getLsbD (64 * l + i)) := by
  simp [laneAt]

/-- Every bit of a block after one lane is replaced. -/
theorem setLane_getLsbD (v : Block) (l : Nat) (r : Lane) (i : Nat) (hi : i < 4096) :
    (setLane v l r).getLsbD i = if i / 64 = l then r.getLsbD (i % 64) else v.getLsbD i := by
  have hm : i % 64 < 64 := Nat.mod_lt _ (by decide)
  have hd : 64 * (i / 64) + i % 64 = i := Nat.div_add_mod i 64
  simp only [setLane, BitVec.getLsbD_or, BitVec.getLsbD_and, BitVec.getLsbD_not, BitVec.getLsbD_shiftLeft,
    BitVec.getLsbD_setWidth, BitVec.getLsbD_allOnes, hi, decide_true, Bool.true_and]
  by_cases h : i / 64 = l
  · subst h
    have h1 : ¬ i < 64 * (i / 64) := by omega
    have h2 : i - 64 * (i / 64) = i % 64 := by omega
    have h3 : i % 64 < 4096 := by omega
    simp [h1, h2, hm, h3]
  · rw [if_neg h]
    by_cases h1 : i < 64 * l
    · simp [h1]
    · have h2 : ¬ i - 64 * l < 64 := by omega
      simp [h1, h2, BitVec.getLsbD_of_ge r (i - 64 * l) (by omega)]

/-- The replaced lane reads as written. -/
theorem laneAt_setLane_same (v : Block) (l : Nat) (r : Lane) (h : l < Config.lanes) : laneAt (setLane v l r) l = r := by
  apply BitVec.eq_of_getLsbD_eq
  intro i hi
  have hl : l < 64 := h
  rw [laneAt_getLsbD, setLane_getLsbD _ _ _ _ (by omega)]
  have h1 : (64 * l + i) / 64 = l := by omega
  have h2 : (64 * l + i) % 64 = i := by omega
  simp [hi, h1, h2]

/-- Every other lane reads as before. -/
theorem laneAt_setLane_other (v : Block) (l k : Nat) (r : Lane) (hk : k < Config.lanes) (h : k ≠ l) :
    laneAt (setLane v l r) k = laneAt v k := by
  apply BitVec.eq_of_getLsbD_eq
  intro i hi
  have hl : k < 64 := hk
  rw [laneAt_getLsbD, laneAt_getLsbD, setLane_getLsbD _ _ _ _ (by omega)]
  have h1 : ¬ (64 * k + i) / 64 = l := by omega
  simp [h1]

/-- The loop writes each lane below its bound once and no lane above it. -/
theorem laneAt_vmatchLanes (c : Color) (v : Block) (n l : Nat) (hn : n ≤ Config.lanes) (hl : l < Config.lanes) :
    laneAt (vmatchLanes c v n) l = if l < n then laneMatch c (laneAt v l) else 0#64 := by
  induction n with
  | zero => simp [vmatchLanes, laneAt]
  | succ n ih =>
    rw [vmatchLanes]
    by_cases h : l = n
    · subst h; simp [laneAt_setLane_same _ _ _ hl]
    · rw [laneAt_setLane_other _ _ _ _ hl h, ih (Nat.le_of_succ_le hn)]
      by_cases h2 : l < n
      · have h3 : l < n + 1 := by omega
        simp [h2, h3]
      · have h3 : ¬ l < n + 1 := by omega
        simp [h2, h3]

/-- Each lane of the result is the match mask of that lane alone. -/
theorem laneAt_vmatch (c : Color) (v : Block) (l : Nat) (hl : l < Config.lanes) :
    laneAt (vmatch c v) l = laneMatch c (laneAt v l) := by
  exact (laneAt_vmatchLanes c v Config.lanes l (Nat.le_refl _) hl).trans (if_pos hl)

/-- Every bit of a lane's match mask: at a field's high bit, whether the field's two bits are the color's. -/
theorem laneMatch_getLsbD (c : Color) (w : Lane) (i : Nat) (hi : i < 64) :
    (laneMatch c w).getLsbD i =
      (decide (i % 2 = 1) && (w.getLsbD i == c.getLsbD 1) && (w.getLsbD (i - 1) == c.getLsbD 0)) := by
  rw [laneMatch, foldLane_getLsbD _ _ hi]
  by_cases h1 : i % 2 = 1
  · have h3 : i - 1 < 64 := by omega
    have h4 : (i - 1) % 2 = 0 := by omega
    simp only [BitVec.getLsbD_xor, BitVec.getLsbD_not, vsel_getLsbD _ _ hi, vsel_getLsbD _ _ h3, h1, h3, h4, hi]
    cases w.getLsbD i <;> cases w.getLsbD (i - 1) <;> cases c.getLsbD 0 <;> cases c.getLsbD 1 <;> rfl
  · simp [h1]

/-- Two blocks with the same lanes are the same. -/
theorem block_ext_of_lanes (v w : Block) (h : ∀ l, l < Config.lanes → laneAt v l = laneAt w l) : v = w := by
  apply BitVec.eq_of_getLsbD_eq
  intro i hi
  have hd : 64 * (i / 64) + i % 64 = i := Nat.div_add_mod i 64
  have hm : i % 64 < 64 := Nat.mod_lt _ (by decide)
  have hl : i / 64 < Config.lanes := Nat.div_lt_of_lt_mul hi
  have hb := congrArg (fun x => x.getLsbD (i % 64)) (h (i / 64) hl)
  simp only [laneAt_getLsbD, hm, hd, decide_true, Bool.true_and] at hb
  exact hb

/-! `driveVmatch` drives the three outputs and nothing else. -/

@[simp] theorem State.driveVmatch_lfsr (s : State) (c : Color) : (s.driveVmatch c).lfsr = s.lfsr := rfl
@[simp] theorem State.driveVmatch_resetSeen (s : State) (c : Color) : (s.driveVmatch c).resetSeen = s.resetSeen := rfl
@[simp] theorem State.driveVmatch_maskOut (s : State) (c : Color) : (s.driveVmatch c).maskOut = 0#8 := rfl
@[simp] theorem State.driveVmatch_matchOut (s : State) (c : Color) : (s.driveVmatch c).matchOut = 0#4 := rfl
@[simp] theorem State.driveVmatch_vmaskOut (s : State) (c : Color) : (s.driveVmatch c).vmaskOut = vmatch c s.vdinBlock := rfl
@[simp] theorem State.driveVmatch_host (s : State) (c : Color) : (s.driveVmatch c).host = s.host := rfl
@[simp] theorem State.driveVmatch_powerOns (s : State) (c : Color) : (s.driveVmatch c).powerOns = s.powerOns := rfl

end Sys2Proof.Machine
end

