-- ==== Sys2Proof/Tests/Slice0.lean ====
section
/-! SUPPORT. Small tests against the spec's own values (95_test_vectors.md), and for each statement of the obligations a concrete
state that meets its hypotheses. -/

namespace Sys2Proof.Tests

open Sys2Proof.Machine

/-- Pins with `rst = 0`. -/
def pins (cmd : Cmd) (din : Byte) (vdin : Block) : Pins where
  rst := false
  cmd := cmd
  din := din
  vdin := vdin

/-- Pins with `rst = 1`. -/
def resetPins (cmd : Cmd) (din : Byte) : Pins where
  rst := true
  cmd := cmd
  din := din
  vdin := 0#4096

/-- The state after reset with these events to come. -/
def after (es : List HostEvent) : State := State.reset.load es

/-- The state before the first reset with these events to come. -/
def before (es : List HostEvent) : State := State.powerOn.load es

/-- What one field of a next state satisfies. -/
def nextHas (r : Result) (f : State → Bool) : Bool :=
  match r with
  | .next t => f t
  | .fault _ => false
  | .refused _ => false

/-! ## Decoding: words written out from 30_encoding.md R41, R42 as `c c o o` -/

theorem test_decode_hold : decode 0b0000#4 = .ok .hold := by rfl
theorem test_decode_step : decode 0b0001#4 = .ok .step := by rfl
theorem test_decode_match_colors : decode 0b0110#4 = .ok (.matchByte 0b01#2) ∧ decode 0b1010#4 = .ok (.matchByte 0b10#2) := ⟨rfl, rfl⟩
theorem test_decode_vmatch_colors : decode 0b0111#4 = .ok (.vmatch 0b01#2) ∧ decode 0b1011#4 = .ok (.vmatch 0b10#2) := ⟨rfl, rfl⟩
/-- R46: the reserved words. -/
theorem test_decode_reserved : decode 0b0100#4 = .error .reservedEncoding ∧ decode 0b1101#4 = .error .reservedEncoding := ⟨rfl, rfl⟩
theorem test_table_words : decodeTableWord 8 0x0 = some .hold ∧ decodeTableWord 8 0xE = some (.matchByte 3#2) ∧
    decodeTableWord 8 0xC = none := by decide

/-! ## WellFormed: one ill-formed line for each check (30_encoding.md R51, R52) -/

theorem test_color_out_of_range : AsmLine.wellFormed (.matchByte 4 0) = false := by decide
theorem test_byte_out_of_range : AsmLine.wellFormed (.matchByte 3 0x100) = false := by decide
theorem test_buffer_too_short : AsmLine.wellFormed (.vmatch 0 [0x00#8, 0xFF#8]) = false := by decide
theorem test_repeat_of_zero : AsmLine.wellFormed (.stepN 0) = false := by decide
theorem test_match_line_in_range : assembleLine (.matchByte 2 0xC8) = some [.clock (pins 0xA#4 0xC8#8 0#4096)] := rfl

/-- 00_scope.md R5: the derived sizes. -/
theorem test_parameters : Config.vbytes = 512 ∧ Config.vfields = 2048 := by decide

/-! ## The commands, one step each -/

/-- 95_test_vectors.md L2.4: HOLD after reset. -/
theorem test_hold_keeps_seed : nextHas (step (after [.clock (pins 0x0#4 0xFF#8 0#4096)]))
    (fun t => t.stateOut == 0xAF23#16 && t.prbsOut == 0x23#8 && t.maskOut == 0x00#8) = true := by decide

/-- L2.1, the seed: 0xAF23 steps to 0x5791 and draws 0x91. -/
theorem test_step_from_seed : nextHas (step (after [.clock (pins 0x1#4 0#8 0#4096)]))
    (fun t => t.stateOut == 0x5791#16 && t.prbsOut == 0x91#8) = true := by decide

/-- L2.1: the last state before the seed returns, and a state with non-tap bits only. -/
theorem test_step_corners : lfsrNext 0x5E46#16 = 0xAF23#16 ∧ lfsrNext 0xFFD2#16 = 0x7FE9#16 ∧ lfsrNext 0x0020#16 = 0x8010#16 ∧
    lfsrPrev 0x5E46#16 = 0xBC8C#16 ∧ lfsrPrev 0x002D#16 = 0x005B#16 := by decide

/-- L2.5: color 2 against 0xC8, fields 3 0 2 0. -/
theorem test_match_one_field : nextHas (step (after [.clock (pins 0xA#4 0xC8#8 0#4096)]))
    (fun t => t.maskOut == 0x08#8 && t.matchOut == 0b0010#4 && t.stateOut == 0xAF23#16) = true := by decide

/-- L2.5: color 0 against 0x93, and color 1 against 0x91. -/
theorem test_match_other_colors : match8 0#2 0x93#8 = 0x08#8 ∧ match8 1#2 0x91#8 = 0x22#8 ∧ compress4 0x22#8 = 0b0101#4 := by decide

/-- L2.8, the block "i mod 256": the first 16 bytes, packed, and lanes 0 and 1 of the result for color 0 and color 3. -/
theorem test_vmatch_counting_block :
    let v := pack [0x00#8, 0x01#8, 0x02#8, 0x03#8, 0x04#8, 0x05#8, 0x06#8, 0x07#8,
      0x08#8, 0x09#8, 0x0A#8, 0x0B#8, 0x0C#8, 0x0D#8, 0x0E#8, 0x0F#8]
    laneAt v 0 = 0x0706050403020100#64 ∧ laneAt v 1 = 0x0F0E0D0C0B0A0908#64 ∧
      laneAt (vmatch 0#2 v) 0 = 0xA0A0A0A2A8A8A8AA#64 ∧ laneAt (vmatch 3#2 v) 1 = 0x0A08080802000000#64 := by decide +kernel

/-- L2.7: "counting nibbles" for color 1 and the lane boundary row for color 1, in the topmost lane; the register keeps the seed. -/
theorem test_vmatch_top_lane : nextHas (step (after [.clock (pins 0x7#4 0#8 (setLane (setLane 0#4096 63 0x4000000000000000#64) 0 0x0123456789ABCDEF#64))]))
    (fun t => laneAt t.vmaskOut 0 == 0x02008A8802000200#64 && laneAt t.vmaskOut 63 == 0x8000000000000000#64 &&
      laneAt t.vmaskOut 62 == 0#64 && t.lfsr == 0xAF23#16 && t.maskOut == 0#8) = true := by decide +kernel

/-! ## Reset, fault and refusal (L2.9) -/

/-- Reset with a MATCH on the pins: the command is ignored. -/
theorem test_reset_ignores_command : nextHas (step (after [.clock (resetPins 0xE#4 0xFF#8)]))
    (fun t => t.lfsr == 0xAF23#16 && t.maskOut == 0x00#8) = true := by decide

/-- Any command before the first reset faults, a reserved one too. -/
theorem test_not_reset_first : step (before [.clock (pins 0x0#4 0#8 0#4096)]) = .fault .notReset ∧
    step (before [.clock (pins 0x5#4 0#8 0#4096)]) = .fault .notReset := ⟨rfl, rfl⟩

/-- R93, 93_implementation_defined.md I8: rst = 0 with a reserved word before the first reset edge does nothing, as long as rst = 1 at
the edge. -/
theorem test_pins_before_the_edge : Sys2Proof.core.run 2 (before [.noEdge (pins 0x5#4 0#8 0#4096), .clock (resetPins 0x1#4 0#8)]) =
    .next State.reset := rfl

/-- R91, R69: without an edge MATCH's outputs follow the pins, and a reserved word drives none. -/
theorem test_outputs_without_edge :
    nextHas (step (before [.noEdge (pins 0xA#4 0xC8#8 0#4096)])) (fun t => t.maskOut == 0x08#8 && t.matchOut == 0b0010#4) = true ∧
    nextHas (step (after [.noEdge (pins 0x8#4 0xFF#8 0#4096)])) (fun t => t.maskOut == 0#8 && t.lfsr == 0xAF23#16) = true := by
  decide

/-- A reserved word after reset is refused. -/
theorem test_reserved_refused : step (after [.clock (pins 0x9#4 0#8 0#4096)]) = .refused .reservedEncoding := rfl

/-- The first step after placing a table word runs it. -/
theorem test_placed_word_runs : nextHas (step (State.reset.withFetchWord 8 0x2)) (fun t => t.maskOut == 0xAA#8) = true := by decide

/-! ## Witnesses: a state and operands for the hypotheses of each statement -/

/-- DecodeAndEncodeAgree: a word that decodes, with the highest color. -/
theorem witness_DecodeAndEncodeAgree : decode 0xF#4 = .ok (.vmatch 3#2) := rfl

/-- SourceLinesAssemble and PseudoCommandsExpand: each range at its ends. -/
theorem witness_SourceLinesAssemble : (3 ≤ 3 ∧ 0xFF ≤ 0xFF) ∧ (List.replicate 512 0x00#8).length = 512 ∧
    (3 < 4 ∨ 0xFF < 0) ∧ (3 < 0 ∨ 0xFF < 0x100) ∧ (3 < 4 ∨ (List.replicate 512 0x00#8).length ≠ 512) ∧
    (3 < 0 ∨ (List.replicate 511 0x00#8).length ≠ 512) := by
  simp only [List.length_replicate]
  decide
theorem witness_PseudoCommandsExpand : 1 ≤ 1 ∧
    ∃ es, assembleLine .drawColor = some es ∧ (after es).resetSeen = true ∧ (after es).host = es ++ [] := by
  exact ⟨by decide, _, rfl, rfl, rfl⟩

theorem witness_StepRunsTheDecodedCommand :
    (after [.clock (pins 0xB#4 0#8 0#4096)]).event = .clock (pins 0xB#4 0#8 0#4096) ∧ (pins 0xB#4 0#8 0#4096).rst = false ∧
      (after [.clock (pins 0xB#4 0#8 0#4096)]).resetSeen = true ∧ decode (pins 0xB#4 0#8 0#4096).cmd = .ok (.vmatch 2#2) ∧
      State.reset.resetSeen = true ∧ decodeTableWord 8 0x1 = some .step := ⟨rfl, rfl, rfl, rfl, rfl, rfl⟩

/-- CycleFollowsThePriorityOrder, FaultExactlyBeforeReset and RefusalExactlyReserved: each clause in turn; the clauses exclude each
other by `rst`, `resetSeen` and the word. -/
theorem witness_priority_reset :
    (before [.clock (resetPins 0x5#4 0#8)]).event = .clock (resetPins 0x5#4 0#8) ∧ (resetPins 0x5#4 0#8).rst = true := ⟨rfl, rfl⟩
theorem witness_priority_notReset :
    (before [.clock (pins 0x5#4 0#8 0#4096)]).event = .clock (pins 0x5#4 0#8 0#4096) ∧ (pins 0x5#4 0#8 0#4096).rst = false ∧
      (before [.clock (pins 0x5#4 0#8 0#4096)]).resetSeen = false := ⟨rfl, rfl, rfl⟩
theorem witness_priority_reserved :
    (after [.clock (pins 0x4#4 0#8 0#4096)]).event = .clock (pins 0x4#4 0#8 0#4096) ∧ (pins 0x4#4 0#8 0#4096).rst = false ∧
      (after [.clock (pins 0x4#4 0#8 0#4096)]).resetSeen = true ∧ (pins 0x4#4 0#8 0#4096).cmd ∈ reservedWords ∧
      step (after [.clock (pins 0x4#4 0#8 0#4096)]) = .refused .reservedEncoding := ⟨rfl, rfl, rfl, by decide, rfl⟩
theorem witness_priority_command :
    (after [.clock (pins 0xE#4 0#8 0#4096)]).event = .clock (pins 0xE#4 0#8 0#4096) ∧ (pins 0xE#4 0#8 0#4096).rst = false ∧
      (after [.clock (pins 0xE#4 0#8 0#4096)]).resetSeen = true ∧ (pins 0xE#4 0#8 0#4096).cmd ∉ reservedWords := ⟨rfl, rfl, rfl, by decide⟩

/-- EventsTakeEffectInOrder, OnlyStepAndResetWriteTheRegister, ResetSeenIsKept and InvariantIsKeptByEveryStep: a step that answers a
next state, one for each event. -/
theorem witness_step_clock : ∃ t, step (after [.clock (pins 0x1#4 0#8 0#4096)]) = .next t ∧ t.lfsr = 0x5791#16 ∧
    (after [.clock (pins 0x1#4 0#8 0#4096)]).event ≠ .powerLoss := ⟨_, rfl, by decide, by decide⟩
theorem witness_step_noEdge : ∃ t, step (after [.noEdge (pins 0x1#4 0#8 0#4096)]) = .next t ∧ t.lfsr = 0xAF23#16 :=
  ⟨_, rfl, rfl⟩
theorem witness_step_powerLoss : ∃ t, step (after [.powerLoss]) = .next t ∧ t.resetSeen = false := ⟨_, rfl, rfl⟩
theorem witness_ResetSeenIsKept_set : ∃ t, step (before [.clock (resetPins 0x0#4 0#8)]) = .next t ∧
    (before [.clock (resetPins 0x0#4 0#8)]).resetSeen = false ∧ t.resetSeen = true := ⟨_, rfl, rfl, rfl⟩
theorem witness_InvariantIsKeptByEveryStep : ∃ s t : State, s.Inv ∧ step s = .next t ∧ t.lfsr ≠ s.lfsr := by
  refine ⟨after [.clock (pins 0x1#4 0#8 0#4096)], _, ⟨fun _ => by decide, by decide, by decide, ?_, .inl rfl⟩, rfl, by decide⟩
  intro l _
  simp [after, State.load, State.reset, laneAt]

/-- ResetValues, ResetIsSynchronous and PowerOnNeedsAReset. -/
theorem witness_ResetIsSynchronous : (resetPins 0x1#4 0#8).rst = true ∧ (resetPins 0xE#4 0xFF#8).rst = true ∧
    [resetPins 0x1#4 0#8, resetPins 0xE#4 0xFF#8] ≠ [] ∧ (∀ p ∈ [resetPins 0x1#4 0#8, resetPins 0xE#4 0xFF#8], p.rst = true) ∧
    (before [.clock (resetPins 0x1#4 0#8), .clock (resetPins 0xE#4 0xFF#8)]).host =
      [resetPins 0x1#4 0#8, resetPins 0xE#4 0xFF#8].map .clock ++ [] ∧
    (after [.noEdge (resetPins 0x1#4 0#8)]).event = .noEdge (resetPins 0x1#4 0#8) := by
  exact ⟨rfl, rfl, by decide, by decide, rfl, rfl⟩

theorem witness_ResetValues :
    (after [.clock (resetPins 0xE#4 0xFF#8)]).event = .clock (resetPins 0xE#4 0xFF#8) ∧ (resetPins 0xE#4 0xFF#8).rst = true :=
  ⟨rfl, rfl⟩
theorem witness_PowerOnNeedsAReset : (pins 0x1#4 0#8 0#4096).rst = false ∧ (resetPins 0x1#4 0#8).rst = true := ⟨rfl, rfl⟩

theorem witness_ResetRestartsTheSequence : (resetPins 0x0#4 0#8).rst = true ∧
    dutiful true [.clock (pins 0x6#4 0x91#8 0#4096), .noEdge (pins 0x1#4 0#8 0#4096)] = true ∧
    drawsAfter 0 [.clock (pins 0x6#4 0x91#8 0#4096), .noEdge (pins 0x1#4 0#8 0#4096)] = 0 ∧
    (pins 0x1#4 0#8 0#4096).rst = false ∧ (pins 0x1#4 0#8 0#4096).cmd = 0x1#4 ∧
    (after [.clock (resetPins 0x0#4 0#8), .clock (pins 0x6#4 0x91#8 0#4096), .noEdge (pins 0x1#4 0#8 0#4096),
      .clock (pins 0x1#4 0#8 0#4096)]).host =
      .clock (resetPins 0x0#4 0#8) :: ([.clock (pins 0x6#4 0x91#8 0#4096), .noEdge (pins 0x1#4 0#8 0#4096)] ++
        .clock (pins 0x1#4 0#8 0#4096) :: []) := by
  exact ⟨rfl, rfl, rfl, rfl, rfl, rfl⟩

theorem witness_PowerLossNeedsAReset : ∃ t, (after [.powerLoss, .clock (pins 0x0#4 0#8 0#4096)]).event = .powerLoss ∧
    step (after [.powerLoss, .clock (pins 0x0#4 0#8 0#4096)]) = .next t ∧ t.event = .clock (pins 0x0#4 0#8 0#4096) ∧
    (pins 0x0#4 0#8 0#4096).rst = false := ⟨_, rfl, rfl, rfl, rfl⟩
theorem witness_PowerLossNeedsAReset_reset : ∃ t, step (after [.powerLoss, .clock (resetPins 0x0#4 0#8)]) = .next t ∧
    t.event = .clock (resetPins 0x0#4 0#8) ∧ (resetPins 0x0#4 0#8).rst = true := ⟨_, rfl, rfl, rfl⟩

/-- StoppedClockKeepsTheRegister: each clause's pins, and a clock cycle that completes under one of them. -/
theorem witness_StoppedClockKeepsTheRegister :
    (resetPins 0xE#4 0xFF#8).rst = true ∧ (pins 0x4#4 0#8 0#4096).cmd.extractLsb' 0 2 ≠ 0b10#2 ∧
    (pins 0x4#4 0#8 0#4096).cmd.extractLsb' 0 2 ≠ 0b11#2 ∧
    ((pins 0xE#4 0#8 0#4096).rst = false ∧ (pins 0xE#4 0#8 0#4096).cmd.extractLsb' 0 2 = 0b10#2) ∧
    ((pins 0xF#4 0#8 0#4096).rst = false ∧ (pins 0xF#4 0#8 0#4096).cmd.extractLsb' 0 2 = 0b11#2) ∧
    ∃ u, step { State.reset with host := .clock (pins 0xE#4 0#8 0#4096) :: [] } = .next u :=
  ⟨rfl, by decide, by decide, ⟨rfl, by decide⟩, ⟨rfl, by decide⟩, ⟨_, rfl⟩⟩

/-- CommandsRequireAReset, HoldChangesNothing, StepShiftsInTheFeedback, MatchMarksEqualFields, VmatchComputesEveryLane,
ConsecutiveDrawsOverlap and SeedPeriodIsMaximal: a state after a reset and one before. -/
theorem witness_reset_seen : State.reset.resetSeen = true ∧ State.reset.lfsr = 0xAF23#16 ∧ State.powerOn.resetSeen = false :=
  ⟨rfl, rfl, rfl⟩
theorem witness_HoldChangesNothing : State.reset.resetSeen = true ∧
    (after (List.replicate 5 (HostEvent.clock { idlePins with cmd := 0x0#4 }))).host =
      List.replicate 5 (HostEvent.clock { idlePins with cmd := 0x0#4 }) ++ [] := ⟨rfl, rfl⟩
theorem witness_StepIsSeenOneCycleLate :
    (after [.clock (pins 0x1#4 0#8 0#4096)]).event = .clock (pins 0x1#4 0#8 0#4096) ∧ (pins 0x1#4 0#8 0#4096).rst = false ∧
      (pins 0x1#4 0#8 0#4096).cmd = 0x1#4 ∧ (after [.clock (pins 0x1#4 0#8 0#4096)]).resetSeen = true := ⟨rfl, rfl, rfl, rfl⟩
theorem witness_SeedPeriodIsMaximal : State.reset.resetSeen = true ∧ State.reset.lfsr = 0xAF23#16 ∧ 0 < 65534 ∧ 65534 < 65535 ∧
    (0x0001#16 : LfsrWord) ≠ 0x0000#16 := ⟨rfl, rfl, by decide, by decide, by decide⟩

/-- VmatchIsMatchOnEachByte: the topmost byte of a block and the same byte on `din`. -/
theorem witness_VmatchIsMatchOnEachByte : 511 < 512 ∧
    (after [.clock (pins 0xB#4 0#8 (setLane 0#4096 63 0xC800000000000000#64))]).resetSeen = true ∧
    (after [.clock (pins 0xA#4 0xC8#8 0#4096)]).resetSeen = true ∧
    (after [.clock (pins 0xA#4 0xC8#8 0#4096)]).pins.din =
      (after [.clock (pins 0xB#4 0#8 (setLane 0#4096 63 0xC800000000000000#64))]).pins.vdin.extractLsb' (8 * 511) 8 := by
  refine ⟨by decide, rfl, rfl, ?_⟩
  decide +kernel

/-- MatchMarksEqualFields, BroadcastMaskRepeatsTheColor, StepShiftsInTheFeedback, PackingIsLittleEndian, BlockIsItsBytes, NarrowBuildComputesAPrefix and ColorsPartitionTheFields: indices at their ends. -/
theorem witness_bit_indices : (0 < 4 ∧ 3 < 4) ∧ (31 < 32 ∧ 7 < 8) ∧ (14 < 15 ∧ 7 < 8) := by decide
theorem witness_indices : (0 < 512 ∧ 511 < 512) ∧ (List.replicate 512 0x00#8).length = 512 ∧
    (∀ i, i < 512 → byteAt 0#4096 i = byteAt 0#4096 i) ∧ (0 ≤ 64 ∧ 64 ≤ 64 ∧ 63 < 64 ∧ 8 ≤ 64) ∧ (1#2 : Color) ≠ 3#2 := by
  exact ⟨by decide, List.length_replicate, fun _ _ => rfl, by decide, by decide⟩

theorem witness_MatchersHaveNoState : (after [.clock (pins 0xA#4 0xC8#8 0#4096)]).resetSeen = true ∧
    ((after [.clock (pins 0xA#4 0xC8#8 0#4096)]).writeLfsr 0x5791#16).resetSeen = true ∧
    (after [.clock (pins 0xA#4 0xC8#8 0#4096)]).pins.din = ((after [.clock (pins 0xA#4 0xC8#8 0#4096)]).writeLfsr 0x5791#16).pins.din ∧
    (after [.clock (pins 0xA#4 0xC8#8 0#4096)]).pins.vdin = ((after [.clock (pins 0xA#4 0xC8#8 0#4096)]).writeLfsr 0x5791#16).pins.vdin :=
  ⟨rfl, rfl, rfl, rfl⟩

/-- UnreadPortsHaveNoEffect: two MATCH cycles with different `vdin`, and two STEP cycles with different `din`. -/
theorem witness_UnreadPortsHaveNoEffect :
    ((pins 0xA#4 0xC8#8 0#4096).rst = (pins 0xA#4 0xC8#8 1#4096).rst ∧ (pins 0xA#4 0xC8#8 0#4096).cmd = (pins 0xA#4 0xC8#8 1#4096).cmd ∧
      (pins 0xA#4 0xC8#8 0#4096).din = (pins 0xA#4 0xC8#8 1#4096).din ∧ (pins 0xA#4 0xC8#8 0#4096).cmd.extractLsb' 0 2 ≠ 0b11#2) ∧
    ((pins 0x1#4 0xC8#8 0#4096).rst = (pins 0x1#4 0x00#8 0#4096).rst ∧ (pins 0x1#4 0xC8#8 0#4096).cmd = (pins 0x1#4 0x00#8 0#4096).cmd ∧
      (pins 0x1#4 0xC8#8 0#4096).cmd.extractLsb' 0 2 ≠ 0b10#2 ∧ (pins 0x1#4 0xC8#8 0#4096).cmd.extractLsb' 0 2 ≠ 0b11#2) := by
  refine ⟨⟨by decide, by decide, by decide, by decide⟩, ⟨by decide, by decide, by decide, by decide⟩⟩

theorem witness_UnreadPortsHaveNoEffect_vmatch :
    (pins 0xB#4 0xC8#8 1#4096).rst = (pins 0xB#4 0x00#8 1#4096).rst ∧ (pins 0xB#4 0xC8#8 1#4096).cmd = (pins 0xB#4 0x00#8 1#4096).cmd ∧
      (pins 0xB#4 0xC8#8 1#4096).cmd.extractLsb' 0 2 ≠ 0b10#2 ∧ (pins 0xB#4 0xC8#8 1#4096).vdin = (pins 0xB#4 0x00#8 1#4096).vdin :=
  ⟨rfl, rfl, by decide, rfl⟩

/-- UnselectedMatcherOutputsAreZero: a reset cycle is neither matcher's. -/
theorem witness_UnselectedMatcherOutputsAreZero_reset :
    (after [.clock (resetPins 0xE#4 0xFF#8)]).event = .clock (resetPins 0xE#4 0xFF#8) ∧
      (∃ t, step (after [.clock (resetPins 0xE#4 0xFF#8)]) = .next t) ∧ (resetPins 0xE#4 0xFF#8).rst = true :=
  ⟨rfl, ⟨_, rfl⟩, rfl⟩

/-- UnselectedMatcherOutputsAreZero: a STEP cycle is neither matcher's. -/
theorem witness_UnselectedMatcherOutputsAreZero :
    (after [.clock (pins 0x1#4 0xFF#8 0#4096)]).event = .clock (pins 0x1#4 0xFF#8 0#4096) ∧
      (∃ t, step (after [.clock (pins 0x1#4 0xFF#8 0#4096)]) = .next t) ∧
      (pins 0x1#4 0xFF#8 0#4096).cmd.extractLsb' 0 2 ≠ 0b10#2 ∧ (pins 0x1#4 0xFF#8 0#4096).cmd.extractLsb' 0 2 ≠ 0b11#2 :=
  ⟨rfl, ⟨_, rfl⟩, by decide, by decide⟩

theorem witness_DrawsDependOnlyOnTheStepCount : State.reset.resetSeen = true ∧ State.reset.lfsr = lfsrAfter 0 0xAF23#16 ∧
    dutiful true (after [.clock (pins 0x1#4 0#8 0#4096), .clock (pins 0x6#4 0x91#8 0#4096), .clock (pins 0x1#4 0#8 0#4096)]).host = true ∧
    drawsAfter 0 (after [.clock (pins 0x1#4 0#8 0#4096), .clock (pins 0x6#4 0x91#8 0#4096), .clock (pins 0x1#4 0#8 0#4096)]).host = 2 :=
  ⟨rfl, rfl, by decide, by decide⟩

/-- DutifulHostNeverStops: from power-on through a reset, and after a reset. -/
theorem witness_DutifulHostNeverStops :
    dutiful (before [.clock (resetPins 0x0#4 0#8), .clock (pins 0x1#4 0#8 0#4096), .powerLoss, .clock (resetPins 0x0#4 0#8)]).resetSeen
      (before [.clock (resetPins 0x0#4 0#8), .clock (pins 0x1#4 0#8 0#4096), .powerLoss, .clock (resetPins 0x0#4 0#8)]).host = true ∧
    dutiful State.reset.resetSeen State.reset.host = true := ⟨by decide, by decide⟩

end Sys2Proof.Tests
end

section
/-! PROOFS. The family 10_state.md: what a step does to the register, to `reset_seen` and to the kept outputs, and the invariant of
every state. -/

namespace Sys2Proof

/-- A word without reserved bits is the word of the command its fields select. -/
theorem encode_selectCommand :
    ∀ w : Cmd, reservedBitsSet w = false → encode (selectCommand (opField w) (colorField w)) = w := by
  decide

/-- A word that decodes is the word of its command (30_encoding.md R51). -/
theorem encode_of_decode (w : Cmd) (i : Instr) (h : decode w = .ok i) : encode i = w := by
  obtain ⟨hr, rfl⟩ := (decode_eq_ok w i).1 h
  exact encode_selectCommand w hr

end Sys2Proof

namespace Sys2Proof.Machine

/-! ## The next-state function loses nothing -/

/-- The inverse step undoes the step (40_lfsr.md R59). -/
theorem lfsrPrev_lfsrNext (s : LfsrWord) : lfsrPrev (lfsrNext s) = s := by
  apply BitVec.eq_of_getLsbD_eq
  intro i hi
  rw [lfsrPrev_getLsbD]
  by_cases h0 : i = 0
  · subst h0
    have hcancel : ∀ b0 b2 b3 b5 : Bool, ((b0 ^^ b2 ^^ b3 ^^ b5) ^^ b2 ^^ b3 ^^ b5) = b0 := by decide
    simp only [lfsrNext_getLsbD, fb_eq]
    exact hcancel _ _ _ _
  · have hlow : i - 1 ≠ 15 := by omega
    have hback : i - 1 + 1 = i := by omega
    simp [lfsrNext_getLsbD, h0, hi, hlow, hback]

theorem lfsrNext_injective : Function.Injective lfsrNext :=
  Function.LeftInverse.injective lfsrPrev_lfsrNext

@[simp] theorem lfsrNext_zero : lfsrNext 0#16 = 0#16 := by decide

/-- The register steps to zero only from zero, since zero steps to itself and the step is injective (40_lfsr.md R58). -/
theorem lfsrNext_eq_zero_iff (s : LfsrWord) : lfsrNext s = 0#16 ↔ s = 0#16 :=
  lfsrNext_injective.eq_iff' lfsrNext_zero

/-! ## What a clock cycle does -/

/-- After a reset edge `prbs_out` is the seed's low byte (10_state.md R25). -/
@[simp] theorem State.resetEdge_prbsOut (s : State) : s.resetEdge.prbsOut = 0x23#8 :=
  (by decide : Config.seed.extractLsb' 0 8 = 0x23#8)

/-- A cycle with `rst = 1` is a reset edge, whatever came before. -/
theorem step_of_reset (s : State) (p : Pins) (h : s.event = .clock p) (hr : p.rst = true) :
    step s = .next s.resetEdge.nextEvent := by
  simp [step, runEvent, h, clockCycle, s.pins_of_clock p h, hr]

/-- A cycle with `rst = 0` before the first reset edge faults. -/
theorem step_not_reset (s : State) (p : Pins) (h : s.event = .clock p) (hr : p.rst = false)
    (hs : s.resetSeen = false) : step s = .fault .notReset := by
  simp [step, runEvent, h, clockCycle, s.pins_of_clock p h, hr, runCommand, afterReset_not_seen _ _ hs]

/-- STEP moves the register on; no other command writes it. -/
theorem exec_lfsr (i : Instr) (s t : State) (h : exec i s = .next t) :
    t.lfsr = if i = .step then lfsrNext s.lfsr else s.lfsr := by
  cases i <;>
    simp only [exec, execHold, execStep, execMatchByte, execVmatch, afterReset_eq_next, Host.Outcome.next.injEq] at h <;>
    obtain ⟨-, rfl⟩ := h <;> simp

/-! ## The outputs a step can leave are clean -/

/-- The part of `State.Inv` that speaks of the three kept outputs. -/
structure CleanOutputs (m : Byte) (q : Nibble) (v : Block) : Prop where
  mask_low_bits : m &&& Config.low8 = 0#8
  match_compressed : q = compress4 m
  vmask_low_bits : ∀ l, l < Config.lanes → laneAt v l &&& Config.low64 = 0#64
  one_matcher : m = 0#8 ∨ v = 0#4096

/-- The invariant is a register that is not zero after a reset, and clean outputs. -/
theorem inv_iff (s : State) :
    s.Inv ↔ (s.resetSeen = true → s.lfsr ≠ 0#16) ∧ CleanOutputs s.maskOut s.matchOut s.vmaskOut :=
  ⟨fun ⟨hl, hm, hq, hv, h1⟩ => ⟨hl, hm, hq, hv, h1⟩, fun ⟨hl, hm, hq, hv, h1⟩ => ⟨hl, hm, hq, hv, h1⟩⟩

/-- A folded byte has no low bit of a field set (41_scalar_match.md R67). -/
theorem foldByte_and_low8 (m : Byte) : foldByte m &&& Config.low8 = 0#8 := by
  apply BitVec.eq_of_getLsbD_eq
  intro i _
  rw [BitVec.getLsbD_and, foldByte_getLsbD, low8_getLsbD]
  rcases Nat.mod_two_eq_zero_or_one i with h | h <;> simp [h]

/-- A folded lane has no low bit of a field set (42_vector_match.md R76). -/
theorem foldLane_and_low64 (m : Lane) : foldLane m &&& Config.low64 = 0#64 := by
  apply BitVec.eq_of_getLsbD_eq
  intro i hi
  rw [BitVec.getLsbD_and, foldLane_getLsbD _ _ hi, low64_getLsbD _ hi]
  rcases Nat.mod_two_eq_zero_or_one i with h | h <;> simp [h]

@[simp] theorem laneAt_zero (l : Nat) : laneAt 0#4096 l = 0#64 := by simp [laneAt]

/-- A zero `vmask_out` beside any scalar match mask is clean. -/
theorem cleanOutputs_foldByte (m : Byte) : CleanOutputs (foldByte m) (compress4 (foldByte m)) 0#4096 where
  mask_low_bits := foldByte_and_low8 m
  match_compressed := rfl
  vmask_low_bits l _ := by simp
  one_matcher := .inr rfl

theorem cleanOutputs_vmatch (c : Color) (v : Block) : CleanOutputs 0#8 0#4 (vmatch c v) where
  mask_low_bits := by decide
  match_compressed := by decide
  vmask_low_bits l hl := by rw [laneAt_vmatch c v l hl]; exact foldLane_and_low64 _
  one_matcher := .inl rfl

theorem cleanOutputs_zero : CleanOutputs 0#8 0#4 0#4096 :=
  cleanOutputs_foldByte 0#8

/-- Whatever word stands on the pins, the outputs it drives are clean. -/
theorem cleanOutputs_followWord (s : State) :
    CleanOutputs s.followWord.maskOut s.followWord.matchOut s.followWord.vmaskOut := by
  unfold State.followWord
  split
  case h_3 c _ => exact cleanOutputs_foldByte _
  case h_4 c _ => exact cleanOutputs_vmatch c s.vdinBlock
  all_goals exact cleanOutputs_zero

/-! ## The invariant -/

theorem seed_ne_zero : Config.seed ≠ 0#16 := by decide

theorem inv_resetEdge (s : State) : s.resetEdge.Inv :=
  (inv_iff _).2 ⟨fun _ => seed_ne_zero, cleanOutputs_zero⟩

theorem inv_losePower (s : State) (h : s.Inv) : s.losePower.Inv :=
  (inv_iff _).2 ⟨by simp, ((inv_iff s).1 h).2⟩

theorem inv_nextEvent (s : State) (h : s.Inv) : s.nextEvent.Inv :=
  (inv_iff _).2 ((inv_iff s).1 h)

theorem inv_clearOutputs (s : State) (h : s.Inv) : s.clearOutputs.Inv :=
  (inv_iff _).2 ⟨h.lfsr_ne_zero, cleanOutputs_zero⟩

theorem inv_followWord (s : State) (h : s.Inv) : s.followWord.Inv := by
  obtain ⟨hl, hr, -, -⟩ := followWord_frame s
  exact (inv_iff _).2 ⟨by rw [hl, hr]; exact h.lfsr_ne_zero, cleanOutputs_followWord s⟩

/-- A command keeps a register that is not zero, and drives the outputs of its own word on the pins. -/
theorem inv_exec (i : Instr) (s t : State) (h : s.Inv) (hd : decode s.pins.cmd = .ok i) (hx : exec i s = .next t) :
    t.Inv := by
  obtain ⟨-, -, hr⟩ := exec_frame i s t hx
  obtain ⟨hm, hq, hv⟩ := exec_outputs i s t hd hx
  refine (inv_iff t).2 ⟨fun hs => ?_, by rw [hm, hq, hv]; exact cleanOutputs_followWord s⟩
  have hne : s.lfsr ≠ 0#16 := h.lfsr_ne_zero (hr ▸ hs)
  rw [exec_lfsr i s t hx]
  split
  · exact mt (lfsrNext_eq_zero_iff s.lfsr).1 hne
  · exact hne

/-- Settles O41, event by event: each updates the state in a way that keeps the invariant. -/
theorem invariantIsKeptByEveryStep : Obligations.InvariantIsKeptByEveryStep := by
  intro s t hs h
  obtain ⟨p, -, -, rfl⟩ | ⟨p, i, u, he, -, -, hd, hx, rfl⟩ | ⟨p, -, rfl⟩ | ⟨-, rfl⟩ := step_next_cases s t h
  · exact inv_nextEvent _ (inv_resetEdge s)
  · rw [← s.pins_of_clock p he] at hd
    exact inv_nextEvent _ (inv_exec i s u hs hd hx)
  · apply inv_nextEvent
    split
    · exact inv_clearOutputs s hs
    · exact inv_followWord s hs
  · exact inv_nextEvent _ (inv_losePower s hs)

/-- Settles O42: both states have zero outputs, and `State.reset` the seed. -/
theorem invariantHoldsAtReset : Obligations.InvariantHoldsAtReset :=
  ⟨(inv_iff _).2 ⟨fun _ => seed_ne_zero, cleanOutputs_zero⟩, (inv_iff _).2 ⟨nofun, cleanOutputs_zero⟩⟩

/-! ## The register and `reset_seen` -/

/-- Time without an edge leaves the register and `reset_seen`. -/
theorem noEdge_frame (s : State) (p : Pins) :
    (if p.rst then s.clearOutputs else s.followWord).lfsr = s.lfsr ∧
      (if p.rst then s.clearOutputs else s.followWord).resetSeen = s.resetSeen := by
  obtain ⟨hl, hr, -, -⟩ := followWord_frame s
  split
  · exact ⟨rfl, rfl⟩
  · exact ⟨hl, hr⟩

/-- Settles O16, event by event. -/
theorem resetSeenIsKept : Obligations.ResetSeenIsKept := by
  intro s t h
  obtain ⟨p, he, hr, rfl⟩ | ⟨p, i, u, -, -, -, -, hx, rfl⟩ | ⟨p, -, rfl⟩ | ⟨he, rfl⟩ := step_next_cases s t h
  · exact ⟨fun _ _ => rfl, fun _ _ => ⟨p, he, hr⟩⟩
  · obtain ⟨-, -, hu⟩ := exec_frame i s u hx
    simp +contextual [hu]
  · obtain ⟨-, hu⟩ := noEdge_frame s p
    simp +contextual [hu]
  · simp [he]

/-- Settles O34, event by event: a command that runs writes the register only if it is STEP, whose one word is 0x1. -/
theorem onlyStepAndResetWriteTheRegister : Obligations.OnlyStepAndResetWriteTheRegister := by
  intro s t h
  obtain ⟨p, he, hr, rfl⟩ | ⟨p, i, u, he, hr, hs, hd, hx, rfl⟩ | ⟨p, -, rfl⟩ | ⟨he, -⟩ := step_next_cases s t h
  · exact .inr (.inl ⟨p, he, hr, rfl⟩)
  · have hu := exec_lfsr i s u hx
    by_cases hi : i = .step
    · subst hi
      exact .inr (.inr (.inl ⟨p, he, hr, (encode_of_decode _ _ hd).symm, hs, hu⟩))
    · exact .inl (hu.trans (if_neg hi))
  · exact .inl (noEdge_frame s p).1
  · exact .inr (.inr (.inr he))

/-! ## Reset and power-on -/

/-- Settles O10: every reset cycle ends in `resetEdge`, whose fields have the values of R25 and R94. -/
theorem resetValues : Obligations.ResetValues :=
  ⟨rfl, rfl, rfl, rfl, rfl, rfl, rfl, fun s p he hr =>
    ⟨_, step_of_reset s p he hr, rfl, rfl, s.resetEdge_prbsOut, rfl, rfl, rfl, rfl⟩⟩

/-- Settles O13: power-on has no reset behind it, so a cycle faults unless it is a reset cycle. -/
theorem powerOnNeedsAReset : Obligations.PowerOnNeedsAReset :=
  ⟨rfl, rfl, fun p _ hr => step_not_reset _ p rfl hr rfl, fun p _ hr => step_of_reset _ p rfl hr⟩

end Sys2Proof.Machine
end

section
/-! PROOFS. The family 20_memory.md: the host's events one by one, and the bytes of a block (R28, R37). -/

namespace Sys2Proof.Machine

/-! ## One event a step -/

/-- Time without an edge leaves the host's events and the power-up counter. -/
theorem noEdge_host_powerOns (s : State) (p : Pins) :
    (if p.rst then s.clearOutputs else s.followWord).host = s.host ∧
      (if p.rst then s.clearOutputs else s.followWord).powerOns = s.powerOns := by
  obtain ⟨-, -, hh, hn⟩ := followWord_frame s
  split
  · exact ⟨rfl, rfl⟩
  · exact ⟨hh, hn⟩

/-- Settles O9, event by event: each leaves the list to `nextEvent`, and only `losePower` counts. -/
theorem eventsTakeEffectInOrder : Obligations.EventsTakeEffectInOrder := by
  intro s t h
  obtain ⟨p, -, -, rfl⟩ | ⟨p, i, u, -, -, -, -, hx, rfl⟩ | ⟨p, -, rfl⟩ | ⟨he, rfl⟩ := step_next_cases s t h
  · exact ⟨rfl, fun _ => rfl⟩
  · obtain ⟨hh, hn, -⟩ := exec_frame i s u hx
    exact ⟨congrArg List.tail hh, fun _ => hn⟩
  · obtain ⟨hh, hn⟩ := noEdge_host_powerOns s p
    exact ⟨congrArg List.tail hh, fun _ => hn⟩
  · exact ⟨rfl, fun hne => absurd he hne⟩

/-! ## The bytes of a block -/

/-- Every bit of a byte of a block. -/
theorem byteAt_getLsbD (v : Block) (i j : Nat) : (byteAt v i).getLsbD j = (decide (j < 8) && v.getLsbD (8 * i + j)) := by
  simp [byteAt]

/-- Every bit of a byte of a lane. -/
theorem byteOfLane_getLsbD (w : Lane) (i j : Nat) :
    (byteOfLane w i).getLsbD j = (decide (j < 8) && w.getLsbD (8 * i + j)) := by
  simp [byteOfLane]

/-- Byte i of a block is byte i % 8 of lane i / 8 (20_memory.md R28). -/
theorem byteAt_eq_byteOfLane (v : Block) (i : Nat) : byteAt v i = byteOfLane (laneAt v (i / 8)) (i % 8) := by
  apply BitVec.eq_of_getLsbD_eq
  intro j hj
  have hin : 8 * (i % 8) + j < 64 := by omega
  have hpos : 64 * (i / 8) + (8 * (i % 8) + j) = 8 * i + j := by omega
  rw [byteAt_getLsbD, byteOfLane_getLsbD, laneAt_getLsbD, hpos, decide_eq_true hin, Bool.true_and]

/-- Every bit of a block stands in one of its bytes. -/
theorem getLsbD_eq_byteAt (v : Block) (k : Nat) : v.getLsbD k = (byteAt v (k / 8)).getLsbD (k % 8) := by
  have hm : k % 8 < 8 := Nat.mod_lt _ (by decide)
  rw [byteAt_getLsbD, Nat.div_add_mod, decide_eq_true hm, Bool.true_and]

/-- Settles O27: each bit of the block stands in one of the 512 bytes. -/
theorem blockIsItsBytes : Obligations.BlockIsItsBytes := by
  intro v w h
  apply BitVec.eq_of_getLsbD_eq
  intro k hk
  rw [getLsbD_eq_byteAt, getLsbD_eq_byteAt w, h (k / 8) (Nat.div_lt_of_lt_mul hk)]

/-! ## Packing -/

/-- The first byte of a buffer is byte 0 of the block. -/
theorem byteAt_pack_cons_zero (b : Byte) (bs : List Byte) : byteAt (pack (b :: bs)) 0 = b := by
  apply BitVec.eq_of_getLsbD_eq
  intro j hj
  have hin : j < 4096 := by omega
  rw [byteAt_getLsbD, pack]
  simp [hj, hin]

/-- The other bytes of a buffer stand one byte above their places without the first. -/
theorem byteAt_pack_cons_succ (b : Byte) (bs : List Byte) (i : Nat) (hi : i + 1 < 512) :
    byteAt (pack (b :: bs)) (i + 1) = byteAt (pack bs) i := by
  apply BitVec.eq_of_getLsbD_eq
  intro j hj
  have hin : 8 * (i + 1) + j < 4096 := by omega
  have hhigh : ¬ 8 * (i + 1) + j < 8 := by omega
  have hback : 8 * (i + 1) + j - 8 = 8 * i + j := by omega
  have hb : b.getLsbD (8 * (i + 1) + j) = false := BitVec.getLsbD_of_ge b _ (by omega)
  rw [byteAt_getLsbD, byteAt_getLsbD, pack, BitVec.getLsbD_or, BitVec.getLsbD_shiftLeft, BitVec.getLsbD_setWidth, hback, hb]
  simp [hin, hhigh]

/-- A packed buffer of any length holds its byte i as byte i of the block, and zero above its end. -/
theorem byteAt_pack (bs : List Byte) (i : Nat) (hi : i < 512) : byteAt (pack bs) i = bs.getD i 0#8 := by
  induction bs generalizing i with
  | nil => simp [pack, byteAt]
  | cons b bs ih =>
    cases i with
    | zero => exact byteAt_pack_cons_zero b bs
    | succ i => exact (byteAt_pack_cons_succ b bs i hi).trans (ih i (Nat.lt_of_succ_lt hi))

/-- Settles O26, by the bits of bytes and lanes, and by induction on the buffer. -/
theorem packingIsLittleEndian : Obligations.PackingIsLittleEndian :=
  ⟨fun v i _ => ⟨rfl, byteAt_eq_byteOfLane v i, rfl⟩, fun bs i _ hi => byteAt_pack bs i hi⟩

end Sys2Proof.Machine
end

section
/-! PROOFS. The family 30_encoding.md: words and commands, source lines, and the command that a cycle runs. -/

namespace Sys2Proof

/-! ## A word is its two fields -/

@[simp] theorem opField_commandWord : ∀ (c : Color) (op : BitVec 2), opField (commandWord c op) = op := by decide

@[simp] theorem colorField_commandWord : ∀ (c : Color) (op : BitVec 2), colorField (commandWord c op) = c := by decide

/-- No command's word is reserved: HOLD and STEP carry the color 0, and the other two have an `op` of their own. -/
theorem reservedBitsSet_encode (i : Instr) : reservedBitsSet (encode i) = false := by
  cases i <;> simp [encode, reservedBitsSet]

/-- The fields of a command's word select the command. -/
theorem selectCommand_encode (i : Instr) : selectCommand (opField (encode i)) (colorField (encode i)) = i := by
  cases i <;> simp [encode, selectCommand]

/-- Decoding undoes encoding (30_encoding.md R51). -/
theorem decode_encode (i : Instr) : decode (encode i) = .ok i :=
  (decode_eq_ok _ _).2 ⟨reservedBitsSet_encode i, selectCommand_encode i⟩

/-- The words with reserved bits set are the six that R46 lists. -/
theorem reservedBitsSet_iff_mem : ∀ w : Cmd, reservedBitsSet w = true ↔ w ∈ Machine.reservedWords := by
  decide

/-- Settles O2: the fields of a word determine it, and a word is refused for its reserved bits alone. -/
theorem decodeAndEncodeAgree : Obligations.DecodeAndEncodeAgree :=
  ⟨decode_encode, encode_of_decode, fun w => (decode_eq_error w _).trans (reservedBitsSet_iff_mem w)⟩

/-- Settles O1: the condition on the fields in general, the table word by word. -/
theorem decodeTableOfAllWords : Obligations.DecodeTableOfAllWords := by
  refine ⟨fun w => ?_, by decide⟩
  simp [reservedBitsSet, opField, colorField]

/-- A table word decodes as its four wires do (log entry 10). -/
theorem decodeTableWord_eq_some (nbits w : Nat) (i : Instr) :
    decodeTableWord nbits w = some i ↔ decode (cmdOfTableWord w) = .ok i := by
  unfold decodeTableWord
  cases decode (cmdOfTableWord w) <;> simp

/-! ## Source lines -/

/-- A color literal and an `op`, put together as R51 writes a command's word. -/
theorem commandWord_ofNat (c : Nat) (op : BitVec 2) :
    commandWord (BitVec.ofNat 2 c) op = BitVec.ofNat 4 c <<< 2 ||| op.setWidth 4 := by
  have hfields : ∀ (d : Cmd) (o : BitVec 2), commandWord (d.setWidth 2) o = d <<< 2 ||| o.setWidth 4 := by decide
  have hcolor : (BitVec.ofNat 4 c).setWidth 2 = BitVec.ofNat 2 c := BitVec.setWidth_ofNat_of_le (by decide) c
  rw [← hfields, hcolor]

@[simp] theorem wellFormed_matchByte (c b : Nat) : (AsmLine.matchByte c b).wellFormed = true ↔ c ≤ 3 ∧ b ≤ 0xFF := by
  simp [AsmLine.wellFormed, colorInRange, byteInRange]

@[simp] theorem wellFormed_vmatch (c : Nat) (v : List Byte) :
    (AsmLine.vmatch c v).wellFormed = true ↔ c ≤ 3 ∧ v.length = 512 := by
  simp only [AsmLine.wellFormed, colorInRange, bufferInRange, Bool.and_eq_true, decide_eq_true_eq]
  rfl

@[simp] theorem wellFormed_stepN (n : Nat) : (AsmLine.stepN n).wellFormed = true ↔ 1 ≤ n := by
  simp [AsmLine.wellFormed, repeatInRange]

end Sys2Proof

namespace Sys2Proof.Machine

theorem assembleLine_of_wellFormed (l : AsmLine) (h : l.wellFormed = true) : assembleLine l = some (lineCycles l) :=
  if_pos h

theorem assembleLine_of_not_wellFormed (l : AsmLine) (h : ¬ l.wellFormed = true) : assembleLine l = none :=
  if_neg h

/-- Settles O3, line by line: the range checks are the statement's bounds, and the word is put together by `commandWord`. -/
theorem sourceLinesAssemble : Obligations.SourceLinesAssemble := by
  refine ⟨⟨_, rfl, rfl, rfl⟩, ⟨_, rfl, rfl, rfl⟩, fun c b hc hb => ?_, fun c v hc hv => ?_, fun c b h => ?_, fun c v h => ?_⟩
  · exact ⟨_, assembleLine_of_wellFormed _ ((wellFormed_matchByte c b).2 ⟨hc, hb⟩), rfl, commandWord_ofNat c 0b10#2, rfl⟩
  · exact ⟨_, assembleLine_of_wellFormed _ ((wellFormed_vmatch c v).2 ⟨hc, hv⟩), rfl, commandWord_ofNat c 0b11#2, rfl⟩
  · refine assembleLine_of_not_wellFormed _ fun hw => ?_
    obtain ⟨hc, hb⟩ := (wellFormed_matchByte c b).1 hw
    omega
  · refine assembleLine_of_not_wellFormed _ fun hw => ?_
    obtain ⟨hc, hv⟩ := (wellFormed_vmatch c v).1 hw
    omega

/-- n lines STEP are n STEP cycles, one after the other. -/
theorem assemble_replicate_step (n : Nat) :
    assemble (List.replicate n .step) = some (List.replicate n (commandCycle .step 0#8 0#4096)) := by
  induction n with
  | zero => rfl
  | succ n ih =>
    rw [List.replicate_succ, assemble, ih, assembleLine_of_wellFormed .step rfl]
    rfl

/-! ## What a command makes of the state -/

/-- The state after a command that runs, still with its own event at hand. -/
def State.afterCommand (s : State) : Instr → State
  | .hold => s.clearOutputs
  | .step => s.clearOutputs.writeLfsr (lfsrNext s.lfsr)
  | .matchByte c => s.driveMatch c
  | .vmatch c => s.driveVmatch c

/-- Every command requires a reset and then completes (30_encoding.md R50). -/
theorem exec_eq_afterReset (i : Instr) (s : State) : exec i s = afterReset s (.next (s.afterCommand i)) := by
  cases i <;> rfl

/-- Settles O17: no command fails for any other reason than a missing reset. -/
theorem commandsRequireAReset : Obligations.CommandsRequireAReset := by
  intro i s
  rw [exec_eq_afterReset]
  exact ⟨fun hs => afterReset_not_seen s _ hs, fun hs => ⟨_, afterReset_seen s _ hs⟩⟩

/-- A cycle in which a command runs always completes, with that command's state. -/
theorem step_eq_afterCommand (s : State) (p : Pins) (i : Instr) (h : s.event = .clock p) (hr : p.rst = false)
    (hs : s.resetSeen = true) (hd : decode p.cmd = .ok i) : step s = .next (s.afterCommand i).nextEvent := by
  rw [step_of_command s p i h hr hs hd, exec_eq_afterReset, afterReset_seen s _ hs, onNext_next]

/-- A cycle after a reset with a reserved word is refused (30_encoding.md R46). -/
theorem step_of_reserved (s : State) (p : Pins) (h : s.event = .clock p) (hr : p.rst = false)
    (hs : s.resetSeen = true) (hd : decode p.cmd = .error .reservedEncoding) : step s = .refused .reservedEncoding := by
  simp [step, runEvent, h, clockCycle, s.pins_of_clock p h, hr, runCommand, afterReset_seen _ _ hs, hd]

/-- Placing a table word presents its four wires (log entry 1). -/
theorem withFetchWord_eq (s : State) (nbits w : Nat) : s.withFetchWord nbits w = s.presentCommand (cmdOfTableWord w) := rfl

/-- Settles O5: a placed word is a clock cycle like any other. -/
theorem stepRunsTheDecodedCommand : Obligations.StepRunsTheDecodedCommand := by
  refine ⟨fun s p i h hr hs hd => step_of_command s p i h hr hs hd, fun s nbits w i hs hd => ?_⟩
  rw [withFetchWord_eq]
  exact step_of_command _ _ i (s.presentCommand_event _) rfl hs ((decodeTableWord_eq_some nbits w i).1 hd)

/-! ## The pseudo-commands -/

/-- The drawn color is bits [7:6] of the register. -/
theorem State.drawnColor_eq (s : State) : s.drawnColor = s.lfsr.extractLsb' 6 2 :=
  BitVec.extractLsb'_extractLsb'_of_le (by decide)

/-- A step that runs DRAWCOLOR's one line draws from the new state (30_encoding.md R52). -/
theorem step_drawColor (s : State) (rest : List HostEvent) (hs : s.resetSeen = true)
    (hh : s.host = commandCycle .step 0#8 0#4096 :: rest) :
    ∃ t, step s = .next t ∧ t.host = rest ∧ t.lfsr = lfsrNext s.lfsr :=
  ⟨_, step_eq_afterCommand s _ .step (s.event_cons _ rest hh) rfl hs (decode_encode .step), congrArg List.tail hh, rfl⟩

/-- Settles O4: each pseudo-command's cycles are those of the lines it stands for. -/
theorem pseudoCommandsExpand : Obligations.PseudoCommandsExpand := by
  refine ⟨rfl, ⟨_, rfl, rfl, rfl⟩, fun n hn => ?_, rfl, rfl, fun s es rest hs hes hh => ?_⟩
  · rw [assembleLine_of_wellFormed _ ((wellFormed_stepN n).2 hn), assemble_replicate_step]
    rfl
  · cases hes
    obtain ⟨t, ht, hrest, hl⟩ := step_drawColor s rest hs hh
    exact ⟨t, ht, hrest, rfl, by rw [t.drawnColor_eq, hl]⟩

/-! ## The ports that a command does not read -/

/-- The state after a cycle depends on the cycle's pins by the one data port that its command reads. -/
theorem afterCommand_nextEvent_congr (s : State) (p q : Pins) (es : List HostEvent) (i : Instr)
    (hdin : ∀ c, i = .matchByte c → p.din = q.din) (hvdin : ∀ c, i = .vmatch c → p.vdin = q.vdin) :
    ((s.load (.clock p :: es)).afterCommand i).nextEvent = ((s.load (.clock q :: es)).afterCommand i).nextEvent := by
  cases i with
  | hold => rfl
  | step => rfl
  | matchByte c =>
    have hread : (s.load (.clock p :: es)).dinByte = (s.load (.clock q :: es)).dinByte := hdin c rfl
    simp only [State.afterCommand, State.driveMatch, hread]
    rfl
  | vmatch c =>
    have hread : (s.load (.clock p :: es)).vdinBlock = (s.load (.clock q :: es)).vdinBlock := hvdin c rfl
    simp only [State.afterCommand, State.driveVmatch, hread]
    rfl

/-- Settles O32, by what the cycle does: a reset, a fault and a refusal read no data port, and a command that runs reads at most
the port of its own `op`. -/
theorem unreadPortsHaveNoEffect : Obligations.UnreadPortsHaveNoEffect := by
  intro s p q es hrst hcmd hdin hvdin
  change step (s.load (.clock p :: es)) = step (s.load (.clock q :: es))
  have hevp : (s.load (.clock p :: es)).event = .clock p := rfl
  have hevq : (s.load (.clock q :: es)).event = .clock q := rfl
  rcases Bool.eq_false_or_eq_true p.rst with hr | hr
  · rw [step_of_reset _ p hevp hr, step_of_reset _ q hevq (hrst ▸ hr)]
    rfl
  · have hrq : q.rst = false := hrst ▸ hr
    rcases Bool.eq_false_or_eq_true s.resetSeen with hs | hs
    · cases hd : decode p.cmd with
      | error e =>
        cases e
        rw [step_of_reserved _ p hevp hr hs hd, step_of_reserved _ q hevq hrq hs (hcmd ▸ hd)]
      | ok i =>
        have hw : p.cmd = encode i := (encode_of_decode _ _ hd).symm
        rw [step_eq_afterCommand _ p i hevp hr hs hd, step_eq_afterCommand _ q i hevq hrq hs (hcmd ▸ hd)]
        refine congrArg _ (afterCommand_nextEvent_congr s p q es i (fun c hi => hdin ?_) (fun c hi => hvdin ?_))
        · rw [hw, hi]; exact opField_commandWord c _
        · rw [hw, hi]; exact opField_commandWord c _
    · rw [step_not_reset _ p hevp hr hs, step_not_reset _ q hevq hrq hs]

end Sys2Proof.Machine
end

section
/-! PROOFS. The family 40_lfsr.md: the next-state function bit by bit, HOLD and STEP, the register along a run of a dutiful host, and
the period of the sequence. -/

namespace Sys2Proof

/-- STEP's one word is 0x1 (30_encoding.md R42). -/
theorem eq_step_iff_of_decode (w : Cmd) (i : Instr) (h : decode w = .ok i) : i = .step ↔ w = 0x1#4 := by
  constructor
  · rintro rfl
    exact (encode_of_decode w _ h).symm
  · rintro rfl
    exact (Except.ok.inj h).symm

end Sys2Proof

namespace Sys2Proof.Machine

/-! ## The register along a run -/

/-- The register is the seed stepped n times, unless a power loss has taken it away (40_lfsr.md R56). -/
def State.Drawn (n : Nat) (s : State) : Prop := s.resetSeen = true → s.lfsr = lfsrAfter n Config.seed

theorem drawsAfter_cons (n : Nat) (e : HostEvent) (es : List HostEvent) :
    drawsAfter n (e :: es) = drawsAfter (drawsAfter n [e]) es := by
  cases e <;> rfl

/-- A cycle's draw is counted exactly when its command is STEP. -/
theorem drawsAfter_command (n : Nat) (p : Pins) (i : Instr) (hr : p.rst = false) (hd : decode p.cmd = .ok i) :
    drawsAfter n [.clock p] = if i = .step then n + 1 else n := by
  simp [drawsAfter, hr, eq_step_iff_of_decode _ _ hd]

/-- Every step keeps the register at the seed stepped as often as STEPs are counted: a reset starts again, STEP adds one, and after a
power loss nothing is said until the next reset. -/
theorem drawn_step (n : Nat) (s t : State) (hs : s.Drawn n) (h : step s = .next t) : t.Drawn (drawsAfter n [s.event]) := by
  obtain ⟨p, he, hr, rfl⟩ | ⟨p, i, u, he, hr, hseen, hd, hx, rfl⟩ | ⟨p, he, rfl⟩ | ⟨-, rfl⟩ := step_next_cases s t h
  · rw [he]
    intro _
    simp [drawsAfter, hr]
  · rw [he, drawsAfter_command n p i hr hd]
    intro _
    rw [State.nextEvent_lfsr, exec_lfsr i s u hx, hs hseen]
    split <;> rfl
  · rw [he]
    obtain ⟨hl, hu⟩ := noEdge_frame s p
    intro hseen
    exact hl.trans (hs (hu ▸ hseen))
  · exact nofun

/-- Past the end of its list the host is idle, which its duties allow after a reset (log entry 2). -/
theorem dutiful_host (b : Bool) (s : State) : dutiful b s.host = dutiful b (s.event :: s.host.tail) := by
  cases h : s.host with
  | nil =>
    have hidle : reservedBitsSet idlePins.cmd = false := rfl
    simp [s.event_nil h, dutiful, hidle, show idlePins.rst = false from rfl]
  | cons e es => simp [s.event_cons e es h]

/-- No command touches the host's events or `reset_seen`. -/
theorem afterCommand_host_resetSeen (s : State) (i : Instr) :
    (s.afterCommand i).host = s.host ∧ (s.afterCommand i).resetSeen = s.resetSeen := by
  cases i <;> exact ⟨rfl, rfl⟩

/-- A host that keeps its duties meets neither a fault nor a refusal, and its duties for the events to come stand (60_exceptions.md
R92). -/
theorem dutiful_step (s : State) (h : dutiful s.resetSeen s.host = true) :
    ∃ t, step s = .next t ∧ dutiful t.resetSeen t.host = true := by
  rw [dutiful_host] at h
  cases he : s.event with
  | clock p =>
    rw [he, dutiful] at h
    cases hr : p.rst with
    | true => exact ⟨_, step_of_reset s p he hr, by simpa [hr] using h⟩
    | false =>
      simp only [hr, Bool.false_eq_true, if_false, Bool.and_eq_true, Bool.not_eq_true'] at h
      obtain ⟨⟨hs, hw⟩, hes⟩ := h
      have hd := (decode_eq_ok p.cmd _).2 ⟨hw, rfl⟩
      refine ⟨_, step_eq_afterCommand s p _ he hr hs hd, ?_⟩
      obtain ⟨hh, hseen⟩ := afterCommand_host_resetSeen s (selectCommand (opField p.cmd) (colorField p.cmd))
      simpa [hh, hseen] using hes
  | noEdge p =>
    obtain ⟨-, hseen⟩ := noEdge_frame s p
    obtain ⟨hh, -⟩ := noEdge_host_powerOns s p
    exact ⟨_, step_of_noEdge s p he, by simpa [he, dutiful, hh, hseen] using h⟩
  | powerLoss =>
    exact ⟨s.losePower.nextEvent, by simp [step, runEvent, he], by simpa [he, dutiful] using h⟩

/-- A dutiful host's list runs to its end, after a reset and with the register at the STEPs counted. -/
theorem run_of_dutiful (es : List HostEvent) (n : Nat) (s : State) (hh : s.host = es)
    (hd : dutiful s.resetSeen s.host = true) (hs : s.Drawn n) :
    ∃ t, core.run es.length s = .next t ∧ t.host = [] ∧ t.resetSeen = true ∧ t.Drawn (drawsAfter n es) := by
  induction es generalizing n s with
  | nil => exact ⟨s, rfl, hh, by simpa [hh, dutiful] using hd, hs⟩
  | cons e es ih =>
    obtain ⟨u, hu, hdu⟩ := dutiful_step s hd
    have hdraw : u.Drawn (drawsAfter n [e]) := s.event_cons e es hh ▸ drawn_step n s u hs hu
    have hhu : u.host = es := by rw [(eventsTakeEffectInOrder s u hu).1, hh, List.tail_cons]
    rw [List.length_cons, run_succ_of_step _ s u hu, drawsAfter_cons]
    exact ih _ u hhu hdu hdraw

/-- Settles O39: along a dutiful list the register follows the count of STEPs, event by event. -/
theorem drawsDependOnlyOnTheStepCount : Obligations.DrawsDependOnlyOnTheStepCount := by
  intro s n hs hl hd
  obtain ⟨t, ht, hh, hseen, hdraw⟩ := run_of_dutiful s.host n s rfl (hs.symm ▸ hd) (fun _ => hl)
  exact ⟨t, ht, hh, hdraw hseen, congrArg (·.extractLsb' 0 8) (hdraw hseen)⟩

/-! ## HOLD and STEP -/

/-- A list of HOLD cycles runs to its end and leaves the register. -/
theorem run_of_holds (n : Nat) (p : Pins) (es : List HostEvent) (s : State) (hr : p.rst = false) (hc : p.cmd = 0x0#4)
    (hs : s.resetSeen = true) (hh : s.host = List.replicate n (.clock p) ++ es) :
    ∃ t, core.run n s = .next t ∧ t.lfsr = s.lfsr ∧ t.host = es := by
  induction n generalizing s with
  | zero => exact ⟨s, rfl, rfl, hh⟩
  | succ n ih =>
    have hstep : step s = .next s.clearOutputs.nextEvent :=
      step_eq_afterCommand s p .hold (s.event_cons _ _ hh) hr hs (by rw [hc]; rfl)
    rw [run_succ_of_step _ s _ hstep]
    exact ih s.clearOutputs.nextEvent hs (congrArg List.tail hh)

/-- Settles O18: HOLD makes `clearOutputs` of a state after a reset, alone and in a row. -/
theorem holdChangesNothing : Obligations.HoldChangesNothing :=
  ⟨rfl, fun s hs => afterReset_seen s _ hs, fun s hs => afterReset_not_seen s _ hs, by decide,
    fun s n es hs hh => run_of_holds n _ es s rfl rfl hs hh⟩

/-- STEP after a reset completes, writing the register's next state. -/
theorem exec_step_of_seen (s : State) (hs : s.resetSeen = true) :
    exec .step s = .next (s.clearOutputs.writeLfsr (lfsrNext s.lfsr)) :=
  afterReset_seen s _ hs

/-- Every bit of `prbs_out`. -/
theorem State.prbsOut_getLsbD (s : State) (k : Nat) : s.prbsOut.getLsbD k = (decide (k < 8) && s.lfsr.getLsbD k) := by
  simp [State.prbsOut]

/-- Below bit 15 the next state is the old one shifted (40_lfsr.md R54). -/
theorem lfsrNext_getLsbD_of_lt (s : LfsrWord) (k : Nat) (hk : k < 15) : (lfsrNext s).getLsbD k = s.getLsbD (k + 1) := by
  rw [lfsrNext_getLsbD, if_neg hk.ne]

/-- Settles O19, by the bits of `lfsrNext`. -/
theorem stepShiftsInTheFeedback : Obligations.StepShiftsInTheFeedback := by
  refine ⟨rfl, fun s hs => ⟨_, exec_step_of_seen s hs, rfl, rfl, ?_, fun k hk => lfsrNext_getLsbD_of_lt s.lfsr k hk, fun k hk => ?_⟩,
    fun s hs => afterReset_not_seen s _ hs, by decide, by decide⟩
  · exact (lfsrNext_getLsbD s.lfsr 15).trans (fb_eq s.lfsr)
  · rw [State.prbsOut_getLsbD, decide_eq_true hk, Bool.true_and]
    exact lfsrNext_getLsbD_of_lt s.lfsr k (by omega)

/-- Settles O38: a drawn byte is the low byte of the register, which the second STEP shifts by one. -/
theorem consecutiveDrawsOverlap : Obligations.ConsecutiveDrawsOverlap := by
  intro s hs
  refine ⟨_, _, exec_step_of_seen s hs, exec_step_of_seen _ hs, ?_, ?_, State.drawnColor_eq _⟩
  · apply BitVec.eq_of_getLsbD_eq
    intro k hk
    have hnext : (lfsrNext (lfsrNext s.lfsr)).getLsbD k = (lfsrNext s.lfsr).getLsbD (k + 1) :=
      lfsrNext_getLsbD_of_lt _ k (by omega)
    have hbyte : k < 8 := by omega
    have hbyte' : k + 1 < 8 := by omega
    simp only [BitVec.getLsbD_extractLsb', State.prbsOut_getLsbD, State.writeLfsr_lfsr, Nat.zero_add, Nat.add_comm 1 k, hnext,
      hbyte, hbyte']
  · rw [State.prbsOut_getLsbD]
    exact lfsrNext_getLsbD_of_lt _ 7 (by decide)

/-! ## The next-state function -/

/-- Settles O35: zero steps to itself, and no other value steps to it. -/
theorem zeroStepsOnlyToZero : Obligations.ZeroStepsOnlyToZero := lfsrNext_eq_zero_iff

theorem lfsrNext_bijective : Function.Bijective lfsrNext := Finite.injective_iff_bijective.1 lfsrNext_injective

/-- The inverse step is inverse on both sides, since there are finitely many values (40_lfsr.md R59). -/
theorem lfsrNext_lfsrPrev (t : LfsrWord) : lfsrNext (lfsrPrev t) = t :=
  Function.LeftInverse.rightInverse_of_surjective lfsrPrev_lfsrNext lfsrNext_bijective.surjective t

/-- The inverse step appends the lost bit below the 15 kept ones (40_lfsr.md R59). -/
theorem lfsrPrev_eq_append (t : LfsrWord) :
    lfsrPrev t =
      (t.extractLsb' 0 15 ++ BitVec.ofBool (t.getLsbD 15 ^^ t.getLsbD 1 ^^ t.getLsbD 2 ^^ t.getLsbD 4) : BitVec (15 + 1)) := by
  apply BitVec.eq_of_getLsbD_eq
  intro i hi
  rw [lfsrPrev_getLsbD, BitVec.getLsbD_append]
  by_cases h0 : i = 0
  · subst h0; simp
  · have hlow : ¬ i < 1 := by omega
    have hin : i - 1 < 15 := by omega
    simp [h0, hlow, hin, hi]

/-- Settles O36: the step is injective on finitely many values. -/
theorem stepIsInvertible : Obligations.StepIsInvertible :=
  ⟨lfsrPrev_lfsrNext, lfsrNext_lfsrPrev, lfsrPrev_eq_append, lfsrNext_bijective⟩

/-- The literal expression is several bits wide, and only its bit 0 reaches the register (90_conflicts.md C4). -/
theorem literalNext_eq (s : LfsrWord) : literalNext s = lfsrNext s := by
  apply BitVec.eq_of_getLsbD_eq
  intro i hi
  rw [lfsrNext_getLsbD]
  by_cases h15 : i = 15
  · subst h15
    simp [literalNext, fb_eq]
  · have hlow : i < 15 := by omega
    simp [literalNext, h15, hlow, Nat.add_comm]

/-- Settles O40. -/
theorem literalFeedbackReadingAgrees : Obligations.LiteralFeedbackReadingAgrees := literalNext_eq

/-! ## The period of the seed

The step is linear over XOR, so that 257 steps are one sum of 16 columns, and 65,535 = 3 * 5 * 17 * 257 steps need no long run. -/

/-- A function on words that is linear over the field of two elements. -/
def XorLinear (g : LfsrWord → LfsrWord) : Prop := ∀ a b, g (a ^^^ b) = g a ^^^ g b

theorem XorLinear.map_zero {g : LfsrWord → LfsrWord} (hg : XorLinear g) : g 0#16 = 0#16 := by
  simpa using hg 0#16 0#16

theorem XorLinear.iterate {g : LfsrWord → LfsrWord} (hg : XorLinear g) (n : Nat) : XorLinear g^[n] := by
  induction n with
  | zero => exact fun _ _ => rfl
  | succ n ih => intro a b; simp only [Function.iterate_succ_apply', ih a b, hg (g^[n] a)]

/-- The feedback is a sum of bits. -/
theorem fb_xor (a b : LfsrWord) : fb (a ^^^ b) = (fb a ^^ fb b) := by
  simp only [fb_eq, BitVec.getLsbD_xor, Bool.xor_assoc, Bool.xor_left_comm]

theorem xorLinear_lfsrNext : XorLinear lfsrNext := by
  intro a b
  apply BitVec.eq_of_getLsbD_eq
  intro i _
  simp only [BitVec.getLsbD_xor, lfsrNext_getLsbD, fb_xor]
  split <;> rfl

/-- The sum of the columns at the bits of a word: a linear function by what it makes of each bit alone. -/
def columnSum : List LfsrWord → LfsrWord → LfsrWord
  | [], _ => 0#16
  | c :: cs, v => (if v.getLsbD 0 then c else 0#16) ^^^ columnSum cs (v >>> 1)

/-- A word is its bit 0 and the word of its other bits. -/
theorem bit_zero_xor_shift (v : LfsrWord) : (if v.getLsbD 0 then BitVec.twoPow 16 0 else 0#16) ^^^ ((v >>> 1) <<< 1) = v := by
  apply BitVec.eq_of_getLsbD_eq
  intro i hi
  have hbit : (if v.getLsbD 0 then BitVec.twoPow 16 0 else 0#16).getLsbD i = (decide (i = 0) && v.getLsbD 0) := by
    cases v.getLsbD 0 <;> simp [eq_comm]
  rw [BitVec.getLsbD_xor, hbit, BitVec.getLsbD_shiftLeft, BitVec.getLsbD_ushiftRight]
  by_cases h0 : i = 0
  · simp [h0]
  · have hlow : ¬ i < 1 := by omega
    have hback : 1 + (i - 1) = i := by omega
    simp [h0, hi, hlow, hback]

/-- A linear function is the sum of its columns, on the words that have no bit above them. -/
theorem XorLinear.eq_columnSum {g : LfsrWord → LfsrWord} (hg : XorLinear g) (cs : List LfsrWord) (v : LfsrWord)
    (hcs : ∀ i, i < cs.length → g (BitVec.twoPow 16 i) = cs.getD i 0#16) (hv : v >>> cs.length = 0#16) :
    g v = columnSum cs v := by
  induction cs generalizing g v with
  | nil => simpa [columnSum, show v = 0#16 by simpa using hv] using hg.map_zero
  | cons c cs ih =>
    have hshift : XorLinear fun w => g (w <<< 1) := fun a b => by simp only [BitVec.shiftLeft_xor_distrib, hg _ _]
    have hunit (i : Nat) : BitVec.twoPow 16 i <<< 1 = BitVec.twoPow 16 (i + 1) := (BitVec.shiftLeft_add 1#16 i 1).symm
    have hrest : g ((v >>> 1) <<< 1) = columnSum cs (v >>> 1) :=
      ih hshift (v >>> 1) (fun i hi => (congrArg g (hunit i)).trans (hcs (i + 1) (Nat.succ_lt_succ hi)))
        (by rw [← hv, ← BitVec.shiftRight_add, List.length_cons, Nat.add_comm])
    have hbit : g (if v.getLsbD 0 then BitVec.twoPow 16 0 else 0#16) = if v.getLsbD 0 then c else 0#16 := by
      split
      · exact hcs 0 (Nat.succ_pos _)
      · exact hg.map_zero
    calc g v = g ((if v.getLsbD 0 then BitVec.twoPow 16 0 else 0#16) ^^^ ((v >>> 1) <<< 1)) := by rw [bit_zero_xor_shift]
      _ = columnSum (c :: cs) v := by rw [hg, hbit, hrest, columnSum]

/-- What 257 steps make of each bit of the register. -/
def columns257 : List LfsrWord :=
  [0x5180#16, 0xA300#16, 0x1781#16, 0x7E82#16, 0xFD05#16, 0xAB8A#16, 0x5714#16, 0xAE28#16,
    0x5C51#16, 0xB8A3#16, 0x7146#16, 0xE28C#16, 0xC518#16, 0x8A30#16, 0x1460#16, 0x28C0#16]

/-- The step by its literal expression, which the kernel evaluates fastest. -/
theorem lfsrNext_eq_literalNext : lfsrNext = literalNext := funext fun s => (literalNext_eq s).symm

theorem lfsrNext_iterate_257_twoPow :
    ∀ i, i < columns257.length → lfsrNext^[257] (BitVec.twoPow 16 i) = columns257.getD i 0#16 := by
  rw [lfsrNext_eq_literalNext]
  decide +kernel

/-- 257 steps are one sum of columns. -/
theorem lfsrNext_iterate_257 : lfsrNext^[257] = columnSum columns257 :=
  funext fun v => (xorLinear_lfsrNext.iterate 257).eq_columnSum columns257 v lfsrNext_iterate_257_twoPow
    (BitVec.ushiftRight_eq_zero (Nat.le_refl 16))

/-- k times 257 steps. -/
theorem lfsrNext_iterate_mul_257 (k : Nat) : lfsrNext^[257 * k] = (columnSum columns257)^[k] := by
  rw [Function.iterate_mul, lfsrNext_iterate_257]

/-- The seed returns after 65,535 steps. -/
theorem lfsrNext_iterate_65535_seed : lfsrNext^[257 * 255] Config.seed = Config.seed := by
  rw [lfsrNext_iterate_mul_257]
  decide +kernel

/-- The seed does not return after a third, a fifth or a seventeenth of 65,535 steps. -/
theorem lfsrNext_iterate_seed_ne : ∀ k ∈ [85, 51, 15], lfsrNext^[257 * k] Config.seed ≠ Config.seed := by
  simp only [lfsrNext_iterate_mul_257]
  decide +kernel

/-- Nor does it after 65,535 / 257 steps. -/
theorem lfsrNext_iterate_255_seed_ne : lfsrNext^[255] Config.seed ≠ Config.seed := by
  rw [lfsrNext_eq_literalNext]
  decide +kernel

/-- A point that returns after n steps, but not after n / p steps for any prime p, first returns after n. -/
theorem minimalPeriod_eq_of_prime_div {α : Type} (f : α → α) (x : α) (n : Nat) (hper : f^[n] x = x)
    (hdiv : ∀ p, p.Prime → p ∣ n → f^[n / p] x ≠ x) : Function.minimalPeriod f x = n := by
  obtain ⟨a, ha⟩ := Function.IsPeriodicPt.minimalPeriod_dvd hper
  rcases eq_or_ne a 1 with rfl | h1
  · rw [ha, mul_one]
  · obtain ⟨p, hp, b, rfl⟩ := Nat.exists_prime_and_dvd h1
    have hnp : n = p * (Function.minimalPeriod f x * b) := by rw [ha, Nat.mul_left_comm]
    have hdvd : Function.minimalPeriod f x ∣ n / p := by
      rw [Nat.div_eq_of_eq_mul_right hp.pos hnp]
      exact Nat.dvd_mul_right _ b
    exact absurd (Function.isPeriodicPt_iff_minimalPeriod_dvd.2 hdvd) (hdiv p hp ⟨_, hnp⟩)

theorem eq_of_prime_dvd_65535 (p : Nat) (hp : p.Prime) (h : p ∣ 65535) : p = 3 ∨ p = 5 ∨ p = 17 ∨ p = 257 := by
  have hdvd (q : Nat) (hq : q.Prime) : p ∣ q ↔ p = q := Nat.prime_dvd_prime_iff_eq hp hq
  rw [show 65535 = 3 * (5 * (17 * 257)) from rfl, hp.dvd_mul, hp.dvd_mul, hp.dvd_mul] at h
  rwa [hdvd 3 (by norm_num), hdvd 5 (by norm_num), hdvd 17 (by norm_num), hdvd 257 (by norm_num)] at h

/-- The seed first returns after 65,535 steps (40_lfsr.md R60). -/
theorem minimalPeriod_seed : Function.minimalPeriod lfsrNext Config.seed = 65535 := by
  refine minimalPeriod_eq_of_prime_div _ _ _ lfsrNext_iterate_65535_seed fun p hp hdvd => ?_
  rcases eq_of_prime_dvd_65535 p hp hdvd with rfl | rfl | rfl | rfl
  · exact lfsrNext_iterate_seed_ne 85 (by decide)
  · exact lfsrNext_iterate_seed_ne 51 (by decide)
  · exact lfsrNext_iterate_seed_ne 15 (by decide)
  · exact lfsrNext_iterate_255_seed_ne

theorem lfsrAfter_eq_iterate (n : Nat) (s : LfsrWord) : lfsrAfter n s = lfsrNext^[n] s := by
  induction n with
  | zero => rfl
  | succ n ih => rw [lfsrAfter_succ, ih, Function.iterate_succ_apply']

theorem lfsrAfter_seed_ne_seed (n : Nat) (h0 : 0 < n) (hn : n < 65535) : lfsrAfter n Config.seed ≠ Config.seed := by
  rw [lfsrAfter_eq_iterate]
  exact Function.not_isPeriodicPt_of_pos_of_lt_minimalPeriod h0.ne' (minimalPeriod_seed.symm ▸ hn)

theorem lfsrAfter_seed_injOn : Set.InjOn (lfsrAfter · Config.seed) (Finset.range 65535) := by
  intro m hm n hn h
  simp only [lfsrAfter_eq_iterate] at h
  rw [Finset.coe_range, ← minimalPeriod_seed] at hm hn
  exact Function.iterate_injOn_Iio_minimalPeriod hm hn h

theorem lfsrAfter_ne_zero (n : Nat) (s : LfsrWord) (hs : s ≠ 0#16) : lfsrAfter n s ≠ 0#16 := by
  induction n with
  | zero => exact hs
  | succ n ih => exact mt (lfsrNext_eq_zero_iff _).1 ih

/-- The 65,535 values on the way are all the values but zero, by their number. -/
theorem exists_lfsrAfter_seed (v : LfsrWord) (hv : v ≠ 0#16) : ∃ n, n < 65535 ∧ lfsrAfter n Config.seed = v := by
  have hcard : (Finset.univ.erase (0#16 : LfsrWord)).card ≤ (Finset.range 65535).card := by
    rw [Finset.card_erase_of_mem (Finset.mem_univ _), Finset.card_univ, ← FinEnum.card_eq_fintypeCard, FinEnum.card_bitVec,
      Finset.card_range]
    decide
  have hmaps : Set.MapsTo (lfsrAfter · Config.seed) (Finset.range 65535) (Finset.univ.erase (0#16 : LfsrWord)) :=
    fun n _ => by simpa using lfsrAfter_ne_zero n _ seed_ne_zero
  obtain ⟨n, hn, rfl⟩ := Finset.surjOn_of_injOn_of_card_le _ hmaps lfsrAfter_seed_injOn hcard
    (Finset.mem_coe.2 (Finset.mem_erase.2 ⟨hv, Finset.mem_univ v⟩))
  exact ⟨n, Finset.mem_range.1 hn, rfl⟩

/-- n STEPs after a reset complete and step the register n times. -/
theorem stepTimes_lfsr (n : Nat) (s : State) (hs : s.resetSeen = true) :
    ∃ t, stepTimes n s = .next t ∧ t.lfsr = lfsrAfter n s.lfsr := by
  induction n generalizing s with
  | zero => exact ⟨s, rfl, rfl⟩
  | succ n ih =>
    rw [stepTimes, exec_step_of_seen s hs, lfsrAfter_add n 1]
    exact ih _ hs

/-- Where n STEPs from the seed lead, in terms of the sequence. -/
theorem stepTimes_reaches_iff (n : Nat) (s : State) (v : LfsrWord) (hs : s.resetSeen = true) :
    (∃ t, stepTimes n s = .next t ∧ t.lfsr = v) ↔ lfsrAfter n s.lfsr = v := by
  obtain ⟨t, ht, hl⟩ := stepTimes_lfsr n s hs
  simp [ht, hl]

/-- Settles O37: the period is 65,535, so the values on the way are different and are all but zero. -/
theorem seedPeriodIsMaximal : Obligations.SeedPeriodIsMaximal := by
  intro s hs hl
  change s.lfsr = Config.seed at hl
  refine ⟨?_, fun n h0 hn => ?_, fun v hv => ?_⟩
  · rw [stepTimes_reaches_iff _ s _ hs, hl, lfsrAfter_eq_iterate]
    exact lfsrNext_iterate_65535_seed
  · obtain ⟨t, ht, htl⟩ := stepTimes_lfsr n s hs
    exact ⟨t, ht, by rw [htl, hl]; exact lfsrAfter_seed_ne_seed n h0 hn⟩
  · simp only [stepTimes_reaches_iff _ s v hs, hl]
    obtain ⟨n, hn, rfl⟩ := exists_lfsrAfter_seed v hv
    exact ⟨n, ⟨hn, rfl⟩, fun m ⟨hm, hmn⟩ => lfsrAfter_seed_injOn (by simpa using hm) (by simpa using hn) hmn⟩

end Sys2Proof.Machine
end

section
/-! PROOFS. The family 41_scalar_match.md: a match result marks the fields that equal the color, in a byte and in a block, and a
matcher has no state. -/

namespace Sys2Proof.Machine

/-! ## A match result, field by field -/

/-- A field equals a color when its two bits are the color's (00_scope.md R9). -/
theorem pair_beq_color {w : Nat} (v : BitVec w) (i : Nat) (c : Color) :
    (v.extractLsb' i 2 == c) = ((v.getLsbD (i + 1) == c.getLsbD 1) && (v.getLsbD i == c.getLsbD 0)) := by
  have hbits : ∀ x d : Color, (x == d) = ((x.getLsbD 1 == d.getLsbD 1) && (x.getLsbD 0 == d.getLsbD 0)) := by decide
  simp [hbits]

/-- The high bit of field k of a match mask says whether that field equals the color (41_scalar_match.md R67). -/
theorem match8_getLsbD_high (c : Color) (b : Byte) (k : Nat) (hk : k < 4) :
    (match8 c b).getLsbD (2 * k + 1) = (field b k == c) := by
  have hodd : (2 * k + 1) % 2 = 1 := by omega
  rw [match8_getLsbD c b _ (by omega), field, pair_beq_color, decide_eq_true hodd, Bool.true_and, Nat.add_sub_cancel]

/-- The low bit of each field of a match mask is 0 (41_scalar_match.md R67). -/
theorem match8_getLsbD_low (c : Color) (b : Byte) (k : Nat) : (match8 c b).getLsbD (2 * k) = false := by
  simp [match8, foldByte_getLsbD]

/-- Every bit of a block's match mask: at a field's high bit, whether the field equals the color; the lanes do not show, since no
field crosses their bounds (42_vector_match.md R76). -/
theorem vmatch_getLsbD (c : Color) (v : Block) (i : Nat) (hi : i < 4096) :
    (vmatch c v).getLsbD i = (decide (i % 2 = 1) && (v.extractLsb' (i - 1) 2 == c)) := by
  have hlane : (vmatch c v).getLsbD i = (laneMatch c (laneAt v (i / 64))).getLsbD (i % 64) := by
    have hl : i / 64 < Config.lanes := Nat.div_lt_of_lt_mul hi
    rw [← laneAt_vmatch c v _ hl, laneAt_getLsbD, decide_eq_true (Nat.mod_lt i (by decide)), Bool.true_and, Nat.div_add_mod]
  rw [hlane, laneMatch_getLsbD _ _ _ (Nat.mod_lt i (by decide)), pair_beq_color]
  by_cases hodd : i % 2 = 1
  · have hodd' : i % 64 % 2 = 1 := by omega
    have hlow : i % 64 - 1 < 64 := by omega
    have hhigh : i % 64 < 64 := by omega
    have hposlow : 64 * (i / 64) + (i % 64 - 1) = i - 1 := by omega
    have hposhigh : 64 * (i / 64) + i % 64 = i - 1 + 1 := by omega
    simp only [laneAt_getLsbD, hodd, hodd', hlow, hhigh, hposlow, hposhigh, decide_true, Bool.true_and]
  · simp [hodd]

/-! ## The four colors -/

/-- Settles O21: a color has two bits, so there are four masks. -/
theorem colorMaskRepeatsTheColor : Obligations.ColorMaskRepeatsTheColor := by
  refine ⟨?_, rfl, rfl, rfl, rfl⟩
  decide

/-- No field has two colors. -/
theorem vmatch_and_vmatch_of_ne (v : Block) (c d : Color) (h : c ≠ d) : vmatch c v &&& vmatch d v = 0#4096 := by
  apply BitVec.eq_of_getLsbD_eq
  intro i hi
  rw [BitVec.getLsbD_and, vmatch_getLsbD c v i hi, vmatch_getLsbD d v i hi, BitVec.getLsbD_zero]
  by_cases hc : v.extractLsb' (i - 1) 2 = c
  · simp [hc, h]
  · simp [hc]

/-- Every field has one of the four colors, so some color's result has its high bit. -/
theorem vmatch_or_getLsbD (v : Block) (i : Nat) (hi : i < 4096) :
    (vmatch 0#2 v ||| vmatch 1#2 v ||| vmatch 2#2 v ||| vmatch 3#2 v).getLsbD i = decide (i % 2 = 1) := by
  have hcolors : ∀ x : Color, (x == 0#2 || x == 1#2 || x == 2#2 || x == 3#2) = true := by decide
  simp only [BitVec.getLsbD_or, vmatch_getLsbD _ v i hi, ← Bool.and_or_distrib_left, hcolors, Bool.and_true]

/-- Settles O29, by the one color of each field. -/
theorem colorsPartitionTheFields : Obligations.ColorsPartitionTheFields := by
  refine fun v => ⟨vmatch_and_vmatch_of_ne v, fun l hl => ?_⟩
  apply BitVec.eq_of_getLsbD_eq
  intro i hi
  have hparity : (64 * l + i) % 2 = i % 2 := by omega
  rw [laneAt_getLsbD, vmatch_or_getLsbD v _ (by omega), hparity, decide_eq_true hi, Bool.true_and]
  exact (high64_getLsbD i hi).symm

/-- A field of the complement is the complement of the field, up to the topmost field of the block. -/
theorem extractLsb'_not_block (v : Block) (i : Nat) (hi : i + 2 ≤ 4096) :
    (~~~v).extractLsb' i 2 = ~~~(v.extractLsb' i 2) := by
  apply BitVec.eq_of_getLsbD_eq
  intro j hj
  have hin : i + j < 4096 := by omega
  simp [hj, hin]

/-- Settles O30: the complement of a field equals c exactly when the field equals 3 - c. -/
theorem complementSwapsColors : Obligations.ComplementSwapsColors := by
  intro c v
  have hcolor : ∀ x d : Color, (~~~x == d) = (x == 3#2 - d) := by decide
  apply BitVec.eq_of_getLsbD_eq
  intro i hi
  rw [vmatch_getLsbD c _ i hi, vmatch_getLsbD _ v i hi, extractLsb'_not_block v _ (by omega), hcolor]

/-! ## The matchers on the machine -/

/-- MATCH after a reset completes, driving its outputs. -/
theorem exec_matchByte_of_seen (c : Color) (s : State) (hs : s.resetSeen = true) :
    exec (.matchByte c) s = .next (s.driveMatch c) :=
  afterReset_seen s _ hs

/-- VMATCH after a reset completes, driving its outputs. -/
theorem exec_vmatch_of_seen (c : Color) (s : State) (hs : s.resetSeen = true) :
    exec (.vmatch c) s = .next (s.driveVmatch c) :=
  afterReset_seen s _ hs

/-- Settles O22, by the fields of the byte on `din`. -/
theorem matchMarksEqualFields : Obligations.MatchMarksEqualFields := by
  refine ⟨fun c => decode_encode (.matchByte c), fun c s hs => afterReset_not_seen s _ hs, fun c s hs =>
    ⟨_, exec_matchByte_of_seen c s hs, rfl, rfl, fun k hk => ?_⟩⟩
  have hhigh : (s.driveMatch c).maskOut.getLsbD (2 * k + 1) = (s.pins.din.extractLsb' (2 * k) 2 == c) :=
    match8_getLsbD_high c s.dinByte k hk
  have hcompressed : (s.driveMatch c).matchOut.getLsbD k = (s.driveMatch c).maskOut.getLsbD (2 * k + 1) :=
    compress4_getLsbD _ k hk
  refine ⟨?_, match8_getLsbD_low c s.dinByte k, ?_, hcompressed⟩
  · rw [hhigh, beq_iff_eq]
  · rw [hcompressed, hhigh, beq_iff_eq]

/-- No command reads the kept outputs: whatever they are, it gives the same result (10_state.md R24). -/
theorem exec_drive (i : Instr) (s : State) (m : Byte) (q : Nibble) (v : Block) : exec i (s.drive m q v) = exec i s := by
  cases i <;> rfl

/-- Settles O31: a matcher only drives outputs, from the color and its port, and no command reads them. -/
theorem matchersHaveNoState : Obligations.MatchersHaveNoState := by
  refine ⟨fun c s s' hs hs' hdin => ?_, fun c s s' hs hs' hvdin => ?_, fun c s i hs => ⟨?_, ?_⟩⟩
  · have hmask : match8 c s.dinByte = match8 c s'.dinByte := congrArg (match8 c) hdin
    exact ⟨_, _, exec_matchByte_of_seen c s hs, exec_matchByte_of_seen c s' hs', hmask, congrArg compress4 hmask⟩
  · exact ⟨_, _, exec_vmatch_of_seen c s hs, exec_vmatch_of_seen c s' hs', congrArg (vmatch c) hvdin⟩
  · have hrun := exec_matchByte_of_seen c s hs
    exact ⟨_, hrun, (exec_drive _ s _ _ _).trans hrun, exec_drive i s _ _ _⟩
  · have hrun := exec_vmatch_of_seen c s hs
    exact ⟨_, hrun, (exec_drive _ s _ _ _).trans hrun, exec_drive i s _ _ _⟩

/-- Only a word whose `op` is MATCH's drives `mask_out` and `match_out` (41_scalar_match.md R69). -/
theorem afterCommand_mask_zero (s : State) (i : Instr) (h : opField (encode i) ≠ 0b10#2) :
    (s.afterCommand i).maskOut = 0#8 ∧ (s.afterCommand i).matchOut = 0#4 := by
  cases i with
  | hold => exact ⟨rfl, rfl⟩
  | step => exact ⟨rfl, rfl⟩
  | matchByte c => exact absurd (opField_commandWord c _) h
  | vmatch c => exact ⟨rfl, rfl⟩

/-- Only a word whose `op` is VMATCH's drives `vmask_out` (42_vector_match.md R77). -/
theorem afterCommand_vmask_zero (s : State) (i : Instr) (h : opField (encode i) ≠ 0b11#2) :
    (s.afterCommand i).vmaskOut = 0#4096 := by
  cases i with
  | hold => rfl
  | step => rfl
  | matchByte c => rfl
  | vmatch c => exact absurd (opField_commandWord c _) h

/-- A clock cycle that completes is a reset edge, or runs the command whose word is on the pins. -/
theorem clock_step_cases (s t : State) (p : Pins) (he : s.event = .clock p) (h : step s = .next t) :
    (p.rst = true ∧ t = s.resetEdge.nextEvent) ∨
      (p.rst = false ∧ ∃ i, p.cmd = encode i ∧ t = (s.afterCommand i).nextEvent) := by
  obtain ⟨q, he', hr, rfl⟩ | ⟨q, i, u, he', hr, -, hd, hx, rfl⟩ | ⟨q, he', -⟩ | ⟨he', -⟩ := step_next_cases s t h
  · cases he.symm.trans he'
    exact .inl ⟨hr, rfl⟩
  · cases he.symm.trans he'
    rw [exec_eq_afterReset, afterReset_eq_next] at hx
    obtain ⟨-, hu⟩ := hx
    cases hu
    exact .inr ⟨hr, i, (encode_of_decode _ _ hd).symm, rfl⟩
  · cases he.symm.trans he'
  · cases he.symm.trans he'

/-- Settles O33: a reset edge zeroes the outputs, and a command leaves zero what its `op` does not select. -/
theorem unselectedMatcherOutputsAreZero : Obligations.UnselectedMatcherOutputsAreZero := by
  intro s p t he h
  obtain ⟨-, rfl⟩ | ⟨hr, i, hw, rfl⟩ := clock_step_cases s t p he h
  · exact ⟨fun _ => ⟨rfl, rfl⟩, fun _ => rfl⟩
  · have hrst : ¬ p.rst = true := by simp [hr]
    exact ⟨fun hop => afterCommand_mask_zero s i (hw ▸ hop.resolve_left hrst),
      fun hop => afterCommand_vmask_zero s i (hw ▸ hop.resolve_left hrst)⟩

end Sys2Proof.Machine
end

section
/-! PROOFS. The family 42_vector_match.md: the broadcast mask, and VMATCH lane by lane, byte by byte and in a narrower build. -/

namespace Sys2Proof.Machine

/-! ## The broadcast mask -/

/-- Every field of the broadcast mask is the color (42_vector_match.md R74). -/
theorem vsel_field (c : Color) (k : Nat) (hk : k < 32) : (vsel c).extractLsb' (2 * k) 2 = c := by
  apply BitVec.eq_of_getLsbD_eq
  intro i hi
  have hparity : (2 * k + i) % 2 = i := by omega
  rw [BitVec.getLsbD_extractLsb', vsel_getLsbD c _ (by omega), hparity, decide_eq_true hi, Bool.true_and]

/-- Every byte of the broadcast mask is the scalar mask (42_vector_match.md R74). -/
theorem byteOfLane_vsel (c : Color) (j : Nat) (hj : j < 8) : byteOfLane (vsel c) j = colorMask c := by
  apply BitVec.eq_of_getLsbD_eq
  intro i hi
  have hparity : (8 * j + i) % 2 = i % 2 := by omega
  rw [byteOfLane_getLsbD, vsel_getLsbD c _ (by omega), hparity, colorMask_getLsbD]

/-- Settles O23: the four constants by their cases, the fields and bytes by the bits of the mask. -/
theorem broadcastMaskRepeatsTheColor : Obligations.BroadcastMaskRepeatsTheColor :=
  ⟨rfl, rfl, rfl, rfl, vsel_field, byteOfLane_vsel⟩

/-! ## Lane by lane -/

/-- Settles O24: each lane of the result is the loop body's value for that lane of `vdin`. -/
theorem vmatchComputesEveryLane : Obligations.VmatchComputesEveryLane :=
  ⟨fun c => decode_encode (.vmatch c), fun _ s hs => afterReset_not_seen s _ hs, fun c s hs =>
    ⟨_, exec_vmatch_of_seen c s hs, rfl, fun l hl => laneAt_vmatch c s.vdinBlock l hl⟩⟩

/-- Settles O28: in each lane that it reaches, the loop stopped early has already written that lane's final value. -/
theorem narrowBuildComputesAPrefix : Obligations.NarrowBuildComputesAPrefix := by
  intro c v n l hn hl
  rw [laneAt_vmatch c v l hl]
  exact laneAt_vmatchLanes c v n l hn hl

/-! ## Byte by byte -/

/-- Each byte of the result is the match mask of that byte alone: a byte's fields do not cross its bounds (42_vector_match.md R76). -/
theorem byteAt_vmatch (c : Color) (v : Block) (i : Nat) (hi : i < 512) :
    byteAt (vmatch c v) i = match8 c (byteAt v i) := by
  apply BitVec.eq_of_getLsbD_eq
  intro j hj
  have hparity : (8 * i + j) % 2 = j % 2 := by omega
  rw [byteAt_getLsbD, vmatch_getLsbD c v _ (by omega), match8_getLsbD c _ j hj, pair_beq_color, hparity]
  by_cases hodd : j % 2 = 1
  · have hlow : j - 1 < 8 := by omega
    have hposhigh : 8 * i + (j - 1) + 1 = 8 * i + j := by omega
    have hposlow : 8 * i + j - 1 = 8 * i + (j - 1) := by omega
    simp only [byteAt_getLsbD, hj, hlow, hposhigh, hposlow, hodd, decide_true, Bool.true_and]
  · simp [hodd]

/-- Settles O25: on the machine, each matcher drives its function's value for the data on its port. -/
theorem vmatchIsMatchOnEachByte : Obligations.VmatchIsMatchOnEachByte := by
  refine ⟨byteAt_vmatch, fun c s s' i hi hs hs' hdin => ?_⟩
  refine ⟨_, _, exec_vmatch_of_seen c s hs, exec_matchByte_of_seen c s' hs', ?_⟩
  exact (byteAt_vmatch c s.vdinBlock i hi).trans (congrArg (match8 c) hdin.symm)

end Sys2Proof.Machine
end

section
/-! PROOFS. The family 60_exceptions.md: the order of a cycle's checks, when a step stops, and what a host that keeps its duties, a
stopped clock and a loss of power meet. -/

namespace Sys2Proof.Machine

/-! ## The duties of the host -/

/-- A host that keeps its duties can run on for as long as it likes: every step leaves it with its duties kept (60_exceptions.md
R92). -/
theorem run_completes_of_dutiful (k : Nat) (s : State) (h : dutiful s.resetSeen s.host = true) :
    ∃ t, core.run k s = .next t := by
  induction k generalizing s with
  | zero => exact ⟨s, rfl⟩
  | succ k ih =>
    obtain ⟨u, hu, hdu⟩ := dutiful_step s h
    rw [run_succ_of_step k s u hu]
    exact ih u hdu

/-- Settles O43: the duties are an invariant of the step, so a run of any length completes. -/
theorem dutifulHostNeverStops : Obligations.DutifulHostNeverStops :=
  fun s h => ⟨dutiful_step s h, fun k => run_completes_of_dutiful k s h⟩

/-! ## The order of a cycle's checks -/

theorem decode_eq_error_iff_mem (w : Cmd) : decode w = .error .reservedEncoding ↔ w ∈ reservedWords :=
  (decode_eq_error w _).trans (reservedBitsSet_iff_mem w)

/-- A word that is not reserved is a command's (30_encoding.md R45). -/
theorem exists_decode_of_not_mem (w : Cmd) (h : w ∉ reservedWords) : ∃ i, decode w = .ok i := by
  cases hd : decode w with
  | ok i => exact ⟨i, rfl⟩
  | error e => exact absurd ((decode_eq_error_iff_mem w).1 hd) h

/-- A command after a reset completes (30_encoding.md R50). -/
theorem exec_of_seen (i : Instr) (s : State) (hs : s.resetSeen = true) : exec i s = .next (s.afterCommand i) := by
  rw [exec_eq_afterReset, afterReset_seen s _ hs]

/-- Going on to the next event after a command drops the event that the command ran in. -/
theorem afterCommand_nextEvent (s : State) (i : Instr) :
    (s.afterCommand i).nextEvent = { s.afterCommand i with host := s.host.tail } := by
  rw [State.nextEvent, (afterCommand_host_resetSeen s i).1]

/-- Settles O6, check by check. -/
theorem cycleFollowsThePriorityOrder : Obligations.CycleFollowsThePriorityOrder := by
  refine fun s p he => ⟨fun hr => step_of_reset s p he hr, fun hr hs => step_not_reset s p he hr hs, fun hr hs hw => ?_,
    fun hr hs hw => ?_⟩
  · exact step_of_reserved s p he hr hs ((decode_eq_error_iff_mem _).2 hw)
  · obtain ⟨i, hd⟩ := exists_decode_of_not_mem p.cmd hw
    exact ⟨i, _, encode_of_decode _ _ hd, exec_of_seen i s hs,
      (step_eq_afterCommand s p i he hr hs hd).trans (congrArg _ (afterCommand_nextEvent s i))⟩

/-! ## When a step stops -/

/-- A loss of power always goes on (log entry 5). -/
theorem step_of_powerLoss (s : State) (h : s.event = .powerLoss) : step s = .next s.losePower.nextEvent := by
  simp [step, runEvent, h]

/-- A step goes on, except in the two kinds of clock cycle that R81 and R82 of 60_exceptions.md name. -/
theorem step_cases (s : State) :
    (∃ t, step s = .next t) ∨
    (∃ p, s.event = .clock p ∧ p.rst = false ∧ s.resetSeen = false ∧ step s = .fault .notReset) ∨
    (∃ p, s.event = .clock p ∧ p.rst = false ∧ s.resetSeen = true ∧ p.cmd ∈ reservedWords ∧
      step s = .refused .reservedEncoding) := by
  cases he : s.event with
  | clock p =>
    obtain ⟨hreset, hfault, hrefused, hcommand⟩ := cycleFollowsThePriorityOrder s p he
    rcases Bool.eq_false_or_eq_true p.rst with hr | hr
    · exact .inl ⟨_, hreset hr⟩
    rcases Bool.eq_false_or_eq_true s.resetSeen with hs | hs
    · by_cases hw : p.cmd ∈ reservedWords
      · exact .inr (.inr ⟨p, rfl, hr, hs, hw, hrefused hr hs hw⟩)
      · obtain ⟨i, t, -, -, ht⟩ := hcommand hr hs hw
        exact .inl ⟨_, ht⟩
    · exact .inr (.inl ⟨p, rfl, hr, hs, hfault hr hs⟩)
  | noEdge p => exact .inl ⟨_, step_of_noEdge s p he⟩
  | powerLoss => exact .inl ⟨_, step_of_powerLoss s he⟩

/-- Settles O7: of the three ways a step can go, only the one before a reset is a fault. -/
theorem faultExactlyBeforeReset : Obligations.FaultExactlyBeforeReset := by
  intro s e
  constructor
  · intro h
    obtain ⟨t, ht⟩ | ⟨p, he, hr, hs, hf⟩ | ⟨p, -, -, -, -, hf⟩ := step_cases s
    · cases ht.symm.trans h
    · cases hf.symm.trans h
      exact ⟨rfl, hs, p, he, hr⟩
    · cases hf.symm.trans h
  · rintro ⟨rfl, hs, p, he, hr⟩
    exact step_not_reset s p he hr hs

/-- A refusal marks every run that goes on from it (60_exceptions.md R82). -/
theorem run_succ_of_refused (k : Nat) (s : State) (e : Refusal) (h : step s = .refused e) :
    core.run (k + 1) s = .refused e := by
  simp only [Host.Core.run, show core.step s = .refused e from h]

/-- Settles O8: of the three ways a step can go, only the one with a reserved word is a refusal. -/
theorem refusalExactlyReserved : Obligations.RefusalExactlyReserved := by
  refine fun s e => ⟨⟨fun h => ?_, ?_⟩, fun h k => run_succ_of_refused k s e h⟩
  · obtain ⟨t, ht⟩ | ⟨p, -, -, -, hf⟩ | ⟨p, he, hr, hs, hw, hf⟩ := step_cases s
    · cases ht.symm.trans h
    · cases hf.symm.trans h
    · cases hf.symm.trans h
      exact ⟨rfl, hs, p, he, hr, hw⟩
  · rintro ⟨rfl, hs, p, he, hr, hw⟩
    exact step_of_reserved s p he hr hs ((decode_eq_error_iff_mem _).2 hw)

/-! ## Power and a stopped clock -/

/-- Settles O14: a lost power leaves the block before its first reset, so a cycle faults unless it is a reset cycle. -/
theorem powerLossNeedsAReset : Obligations.PowerLossNeedsAReset := fun s h =>
  ⟨_, step_of_powerLoss s h, rfl, rfl, rfl, rfl, fun p he =>
    ⟨fun hr => step_not_reset _ p he hr rfl, fun hr => ⟨_, step_of_reset _ p he hr, rfl, rfl⟩⟩⟩

/-- What `mask_out` carries while these pins stand: a match result under MATCH, and zero beside it (41_scalar_match.md R69). -/
def Pins.maskOut (p : Pins) : Byte :=
  if p.rst = false ∧ opField p.cmd = 0b10#2 then match8 (colorField p.cmd) p.din else 0#8

/-- What `vmask_out` carries while these pins stand: a match result under VMATCH, and zero beside it (42_vector_match.md R77). -/
def Pins.vmaskOut (p : Pins) : Block :=
  if p.rst = false ∧ opField p.cmd = 0b11#2 then vmatch (colorField p.cmd) p.vdin else 0#4096

theorem Pins.maskOut_of_match (p : Pins) (hr : p.rst = false) (hop : opField p.cmd = 0b10#2) :
    p.maskOut = match8 (colorField p.cmd) p.din :=
  if_pos ⟨hr, hop⟩

theorem Pins.vmaskOut_of_vmatch (p : Pins) (hr : p.rst = false) (hop : opField p.cmd = 0b11#2) :
    p.vmaskOut = vmatch (colorField p.cmd) p.vdin :=
  if_pos ⟨hr, hop⟩

theorem Pins.maskOut_eq_zero (p : Pins) (h : p.rst = true ∨ opField p.cmd ≠ 0b10#2) : p.maskOut = 0#8 := by
  refine if_neg fun ⟨hr, hop⟩ => ?_
  simp [hr, hop] at h

theorem Pins.vmaskOut_eq_zero (p : Pins) (h : p.rst = true ∨ opField p.cmd ≠ 0b11#2) : p.vmaskOut = 0#4096 := by
  refine if_neg fun ⟨hr, hop⟩ => ?_
  simp [hr, hop] at h

@[simp] theorem compress4_zero : compress4 0#8 = 0#4 := by decide

/-- The outputs that the pins p drive, on the state s. -/
def State.drivePins (s : State) (p : Pins) : State := s.drive p.maskOut (compress4 p.maskOut) p.vmaskOut

/-- Where neither matcher is selected the pins drive zeros. -/
theorem drivePins_eq_clearOutputs (s : State) (p : Pins) (hm : p.rst = true ∨ opField p.cmd ≠ 0b10#2)
    (hv : p.rst = true ∨ opField p.cmd ≠ 0b11#2) : s.drivePins p = s.clearOutputs := by
  rw [State.drivePins, p.maskOut_eq_zero hm, p.vmaskOut_eq_zero hv, compress4_zero]
  rfl

/-- Neither matcher's `op` has a reserved word (30_encoding.md R45). -/
theorem opField_of_reservedBitsSet : ∀ w : Cmd, reservedBitsSet w = true → opField w ≠ 0b10#2 ∧ opField w ≠ 0b11#2 := by
  decide

/-- The word on the pins drives what its `op` field selects, a reserved word zeros (30_encoding.md R49). -/
theorem followWord_eq_drivePins (s : State) (hr : s.pins.rst = false) : s.followWord = s.drivePins s.pins := by
  unfold State.followWord
  cases hd : decode s.pins.cmd with
  | error e =>
    obtain ⟨hm, hv⟩ := opField_of_reservedBitsSet _ ((decode_eq_error _ e).1 hd)
    exact (drivePins_eq_clearOutputs s _ (.inr hm) (.inr hv)).symm
  | ok i =>
    have hw : s.pins.cmd = encode i := (encode_of_decode _ _ hd).symm
    cases i with
    | hold => exact (drivePins_eq_clearOutputs s _ (.inr (by rw [hw]; decide)) (.inr (by rw [hw]; decide))).symm
    | step => exact (drivePins_eq_clearOutputs s _ (.inr (by rw [hw]; decide)) (.inr (by rw [hw]; decide))).symm
    | matchByte c =>
      have hop : opField s.pins.cmd = 0b10#2 := hw ▸ opField_commandWord c _
      have hc : colorField s.pins.cmd = c := hw ▸ colorField_commandWord c _
      have hv : s.pins.vmaskOut = 0#4096 := s.pins.vmaskOut_eq_zero (.inr (by rw [hop]; decide))
      rw [State.drivePins, s.pins.maskOut_of_match hr hop, hv, hc]
      rfl
    | vmatch c =>
      have hop : opField s.pins.cmd = 0b11#2 := hw ▸ opField_commandWord c _
      have hc : colorField s.pins.cmd = c := hw ▸ colorField_commandWord c _
      have hm : s.pins.maskOut = 0#8 := s.pins.maskOut_eq_zero (.inr (by rw [hop]; decide))
      rw [State.drivePins, s.pins.vmaskOut_of_vmatch hr hop, hm, hc]
      rfl

/-- Time without an edge only drives the outputs of its pins (60_exceptions.md R91; log entry 6). -/
theorem step_noEdge_eq_drivePins (s : State) (p : Pins) (h : s.event = .noEdge p) :
    step s = .next (s.drivePins p).nextEvent := by
  rw [step_of_noEdge s p h]
  rcases Bool.eq_false_or_eq_true p.rst with hr | hr
  · rw [if_pos hr, drivePins_eq_clearOutputs s p (.inl hr) (.inl hr)]
  · have hp := s.pins_of_noEdge p h
    rw [if_neg (by simp [hr]), followWord_eq_drivePins s (hp ▸ hr), hp]

/-- A clock cycle that completes leaves the outputs of its pins. -/
theorem clock_step_outputs (s u : State) (p : Pins) (he : s.event = .clock p) (h : step s = .next u) :
    u.maskOut = p.maskOut ∧ u.matchOut = compress4 p.maskOut ∧ u.vmaskOut = p.vmaskOut := by
  have hp := s.pins_of_clock p he
  obtain ⟨q, he', hr, rfl⟩ | ⟨q, i, v, he', hr, -, hd, hx, rfl⟩ | ⟨q, he', -⟩ | ⟨he', -⟩ := step_next_cases s u h
  · cases he.symm.trans he'
    simp [p.maskOut_eq_zero (.inl hr), p.vmaskOut_eq_zero (.inl hr)]
  · cases he.symm.trans he'
    have hout := exec_outputs i s v (hp ▸ hd) hx
    rwa [followWord_eq_drivePins s (hp ▸ hr), hp] at hout
  · cases he.symm.trans he'
  · cases he.symm.trans he'

/-- Settles O15: both kinds of event drive the outputs of the pins, and time without an edge does nothing else. -/
theorem stoppedClockKeepsTheRegister : Obligations.StoppedClockKeepsTheRegister := by
  intro s p es
  refine ⟨_, step_noEdge_eq_drivePins _ p rfl, rfl, rfl, rfl, rfl, fun h => ?_, fun h => p.vmaskOut_eq_zero h, fun hr hop => ?_,
    fun hr hop => p.vmaskOut_of_vmatch hr hop, fun u hu => ?_⟩
  · have hm : p.maskOut = 0#8 := p.maskOut_eq_zero h
    exact ⟨hm, (congrArg compress4 hm).trans compress4_zero⟩
  · exact ⟨p.maskOut_of_match hr hop, rfl⟩
  · obtain ⟨hm, hq, hv⟩ := clock_step_outputs _ u p rfl hu
    exact ⟨hm.symm, hq.symm, hv.symm⟩

end Sys2Proof.Machine
end

section
/-! PROOFS. The family 70_reset_and_hazards.md: what a cycle reads of the state and of the host's events, a reset and the sequence
that it restarts, and the one cycle between a STEP and its draw. -/

namespace Sys2Proof.Machine

/-! ## What a cycle does not read -/

/-- A clock cycle goes alike from two states, up to g, if g takes what a reset edge and every command make of the one to what they
make of the other: whether the cycle stops depends on its pins and `reset_seen` alone. -/
theorem clock_step_map (s s' : State) (p : Pins) (g : State → State) (he : s.event = .clock p) (he' : s'.event = .clock p)
    (hseen : s'.resetSeen = s.resetSeen) (hreset : s'.resetEdge.nextEvent = g s.resetEdge.nextEvent)
    (hcommand : ∀ i, (s'.afterCommand i).nextEvent = g (s.afterCommand i).nextEvent) :
    step s' = onNext (step s) g := by
  rcases Bool.eq_false_or_eq_true p.rst with hr | hr
  · rw [step_of_reset s p he hr, step_of_reset s' p he' hr, hreset, onNext_next]
  rcases Bool.eq_false_or_eq_true s.resetSeen with hs | hs
  · cases hd : decode p.cmd with
    | ok i =>
      rw [step_eq_afterCommand s p i he hr hs hd, step_eq_afterCommand s' p i he' hr (hseen.trans hs) hd, hcommand, onNext_next]
    | error e =>
      cases e
      rw [step_of_reserved s p he hr hs hd, step_of_reserved s' p he' hr (hseen.trans hs) hd, onNext_refused]
  · rw [step_not_reset s p he hr hs, step_not_reset s' p he' hr (hseen.trans hs), onNext_fault]

theorem onNext_id (r : Result) : onNext r id = r := by
  cases r <;> rfl

/-- A clock cycle reads nothing of what the combinational outputs carried before it (10_state.md R24). -/
theorem clock_step_drive (s : State) (p : Pins) (m : Byte) (q : Nibble) (v : Block) (he : s.event = .clock p) :
    step (s.drive m q v) = step s := by
  have hcommand (i : Instr) : ((s.drive m q v).afterCommand i).nextEvent = (s.afterCommand i).nextEvent := by
    cases i <;> rfl
  rw [clock_step_map s (s.drive m q v) p id he he rfl rfl hcommand, onNext_id]

/-- An event takes effect alike, whatever the host does after it (20_memory.md R37). -/
theorem step_load_cons (s : State) (e : HostEvent) (es fs : List HostEvent) :
    step (s.load (e :: fs)) = onNext (step (s.load (e :: es))) (·.load fs) := by
  cases e with
  | clock p => exact clock_step_map _ _ p _ rfl rfl rfl rfl fun i => by cases i <;> rfl
  | noEdge p =>
    rw [step_noEdge_eq_drivePins _ p rfl, step_noEdge_eq_drivePins _ p rfl]
    rfl
  | powerLoss => rfl

/-! ## Runs -/

/-- A run that completes has completed its first step. -/
theorem run_succ_eq_next (k : Nat) (s t : State) (h : core.run (k + 1) s = .next t) :
    ∃ u, step s = .next u ∧ core.run k u = .next t := by
  obtain ⟨u, hu⟩ | ⟨p, -, -, -, hf⟩ | ⟨p, -, -, -, -, hf⟩ := step_cases s
  · exact ⟨u, hu, run_succ_of_step k s u hu ▸ h⟩
  · simp only [Host.Core.run, show core.step s = _ from hf, reduceCtorEq] at h
  · simp only [Host.Core.run, show core.step s = _ from hf, reduceCtorEq] at h

/-- A run over a list of events goes alike, whatever the host does after them. -/
theorem run_load_append (es fs : List HostEvent) (s t : State) (h : core.run es.length (s.load es) = .next t) :
    core.run es.length (s.load (es ++ fs)) = .next (t.load fs) := by
  induction es generalizing s with
  | nil =>
    cases h
    rfl
  | cons e es ih =>
    obtain ⟨u, hu, ht⟩ := run_succ_eq_next _ _ t h
    have hstep : step (s.load (e :: (es ++ fs))) = .next (u.load (es ++ fs)) := by
      rw [step_load_cons s e es, hu, onNext_next]
    have hhost : u.load es = u := congrArg u.load (eventsTakeEffectInOrder _ u hu).1.symm
    exact (run_succ_of_step _ _ _ hstep).trans (ih u (hhost.symm ▸ ht))

/-- A run that completes goes on as a run from the state it reaches. -/
theorem run_add_of_run (m n : Nat) (s t : State) (h : core.run m s = .next t) : core.run (m + n) s = core.run n t := by
  induction m generalizing s with
  | zero =>
    cases h
    rw [Nat.zero_add]
  | succ m ih =>
    obtain ⟨u, hu, ht⟩ := run_succ_eq_next m s t h
    rw [Nat.succ_add, run_succ_of_step _ s u hu, ih u ht]

/-! ## A reset and the events after it -/

/-- After a reset the register holds the seed for as long as a host that keeps its duties lets no STEP follow (70_reset_and_hazards.md
R95). -/
theorem run_of_reset_without_draws (s : State) (p : Pins) (es rest : List HostEvent) (hr : p.rst = true)
    (hd : dutiful true es = true) (hn : drawsAfter 0 es = 0) (hh : s.host = .clock p :: (es ++ rest)) :
    ∃ t, core.run (es.length + 1) s = .next t ∧ t.lfsr = Config.seed ∧ t.resetSeen = true ∧ t.host = rest := by
  obtain ⟨t, ht, -, hseen, hdraw⟩ := run_of_dutiful es 0 (s.resetEdge.load es) rfl hd fun _ => rfl
  rw [hn] at hdraw
  have hreset : s.resetEdge.nextEvent = s.resetEdge.load (es ++ rest) := by
    rw [State.nextEvent, State.resetEdge_host, hh]
    rfl
  refine ⟨t.load rest, ?_, hdraw hseen, hseen, rfl⟩
  rw [run_succ_of_step _ s _ (step_of_reset s p (s.event_cons _ _ hh) hr), hreset]
  exact run_load_append es rest _ t ht

/-- Reset cycles in a row keep the host's duties. -/
theorem dutiful_of_resets (ps : List Pins) (h : ∀ p ∈ ps, p.rst = true) : dutiful true (ps.map .clock) = true := by
  induction ps with
  | nil => rfl
  | cons p ps ih =>
    obtain ⟨hp, hps⟩ := List.forall_mem_cons.1 h
    simp [dutiful, hp, ih hps]

/-- Reset cycles in a row draw nothing. -/
theorem drawsAfter_of_resets (ps : List Pins) (h : ∀ p ∈ ps, p.rst = true) : drawsAfter 0 (ps.map .clock) = 0 := by
  induction ps with
  | nil => rfl
  | cons p ps ih =>
    obtain ⟨hp, hps⟩ := List.forall_mem_cons.1 h
    simp [drawsAfter, hp, ih hps]

/-- One or more reset cycles in a row leave the seed, since each after the first is an event without a draw (70_reset_and_hazards.md
R93). -/
theorem run_of_resets (s : State) (ps : List Pins) (es : List HostEvent) (hne : ps ≠ []) (hr : ∀ p ∈ ps, p.rst = true)
    (hh : s.host = ps.map .clock ++ es) :
    ∃ t, core.run ps.length s = .next t ∧ t.lfsr = Config.seed ∧ t.resetSeen = true ∧ t.host = es := by
  obtain ⟨p, ps, rfl⟩ := List.exists_cons_of_ne_nil hne
  obtain ⟨hp, hps⟩ := List.forall_mem_cons.1 hr
  have hrun := run_of_reset_without_draws s p _ es hp (dutiful_of_resets ps hps) (drawsAfter_of_resets ps hps) hh
  rwa [List.length_map] at hrun

/-- Pins that stand before a cycle's edge only drive the combinational outputs, which the cycle does not read
(70_reset_and_hazards.md R93). -/
theorem run_noEdge_then_clock (s : State) (p q : Pins) (es : List HostEvent) :
    core.run 2 (s.load (.noEdge p :: .clock q :: es)) = core.run 1 (s.load (.clock q :: es)) := by
  have hdrive : step (s.load (.noEdge p :: .clock q :: es)) = .next ((s.load (.clock q :: es)).drivePins p) :=
    step_noEdge_eq_drivePins _ p rfl
  have hclock : step ((s.load (.clock q :: es)).drivePins p) = step (s.load (.clock q :: es)) :=
    clock_step_drive _ q _ _ _ rfl
  rw [run_succ_of_step 1 _ _ hdrive]
  simp only [Host.Core.run, show core.step ((s.load (.clock q :: es)).drivePins p) = core.step _ from hclock]

/-- The low byte of the seed is 0x23 (10_state.md R25). -/
theorem prbsOut_of_seed (s : State) (h : s.lfsr = Config.seed) : s.prbsOut = 0x23#8 :=
  (congrArg (·.extractLsb' 0 8) h).trans s.resetEdge_prbsOut

/-- Settles O11: a reset edge reads no pin but `rst`, and a cycle none that stood before its edge. -/
theorem resetIsSynchronous : Obligations.ResetIsSynchronous := by
  refine ⟨fun s p q es hp hq => ?_, fun s ps es hne hr hh => ?_, fun s p he => ?_, run_noEdge_then_clock⟩
  · rw [step_of_reset _ p rfl hp, step_of_reset _ q rfl hq]
    rfl
  · obtain ⟨t, ht, hl, hseen, hhost⟩ := run_of_resets s ps es hne hr hh
    exact ⟨t, ht, hl, hseen, hl, prbsOut_of_seed t hl, hhost⟩
  · exact ⟨_, step_noEdge_eq_drivePins s p he, rfl, rfl⟩

/-! ## STEP -/

/-- A STEP cycle after a reset completes, with the register's next state. -/
theorem step_of_step_word (s : State) (p : Pins) (he : s.event = .clock p) (hr : p.rst = false) (hc : p.cmd = 0x1#4)
    (hs : s.resetSeen = true) : step s = .next (s.afterCommand .step).nextEvent :=
  step_eq_afterCommand s p .step he hr hs (hc ▸ decode_encode .step)

/-- The register after the first STEP since a reset, whose low byte is the draw 0x91 (70_reset_and_hazards.md R95). -/
theorem lfsrNext_seed : lfsrNext Config.seed = 0x5791#16 := by decide

/-- Settles O12: the events between leave the seed, and STEP moves it on. -/
theorem resetRestartsTheSequence : Obligations.ResetRestartsTheSequence := by
  intro s p q es rest hp hd hn hq hc hh
  obtain ⟨t, ht, hl, hseen, hhost⟩ := run_of_reset_without_draws s p es _ hp hd hn hh
  have hstep := step_of_step_word t q (t.event_cons _ _ hhost) hq hc hseen
  have hlfsr : (t.afterCommand .step).nextEvent.lfsr = 0x5791#16 := (congrArg lfsrNext hl).trans lfsrNext_seed
  refine ⟨_, ?_, congrArg (·.extractLsb' 0 8) hlfsr, hlfsr, congrArg List.tail hhost⟩
  rw [run_add_of_run (es.length + 1) 1 s t ht, run_succ_of_step 0 t _ hstep]
  rfl

theorem State.prbsOut_getLsbD_of_lt (s : State) (k : Nat) (hk : k < 8) : s.prbsOut.getLsbD k = s.lfsr.getLsbD k := by
  rw [State.prbsOut_getLsbD, decide_eq_true hk, Bool.true_and]

/-- Settles O20: both outputs are views of the register, which STEP shifts at the end of its cycle. -/
theorem stepIsSeenOneCycleLate : Obligations.StepIsSeenOneCycleLate := by
  refine fun s p he hr hc hs =>
    ⟨_, step_of_step_word s p he hr hc hs, rfl, s.prbsOut_getLsbD_of_lt, rfl, fun k hk => ?_⟩
  exact (State.prbsOut_getLsbD_of_lt _ k hk).trans (lfsrNext_getLsbD_of_lt s.lfsr k (by omega))

end Sys2Proof.Machine
end
